-- ==== Sys2Proof/Word.lean ====
section
/-! DEFINITION. Words (00_scope.md R2): the carrier and the range. A word is a signed integer, computed on as a
mathematical integer and then checked (40_alu.md R70), so the carrier is `Int`, written so everywhere, and nothing
wraps. An address is a natural number without a largest one (R3), written `Nat`. -/

namespace Sys2Proof

/-- `WMIN = -2^(XLEN-1)` for `XLEN = n` (00_scope.md R2). -/
def wmin (n : Nat) : Int := -((2 ^ (n - 1) : Nat) : Int)

/-- `WMAX = 2^(XLEN-1) - 1` for `XLEN = n` (00_scope.md R2). -/
def wmax (n : Nat) : Int := ((2 ^ (n - 1) : Nat) : Int) - 1

end Sys2Proof
end

