-- ==== Sys2Proof/Syntax.lean ====
section
/-! DEFINITION. The instructions: one constructor per row of spec/opcode_table.json (30_encoding.md R55), each with the
addressing modes of the operands its format uses (R57). The operand literals are no part of an instruction: they are
read from memory while it executes (R58), and an untaken jump does not read all of them (R65). -/

namespace Sys2Proof

/-- The addressing modes (30_encoding.md R54). -/
inductive Mode where
  /-- Digit 0: the literal is the address of the operand. -/
  | position
  /-- Digit 1: the literal is the operand. -/
  | immediate
  /-- Digit 2: `rb` plus the literal is the address of the operand. -/
  | relative
  deriving DecidableEq, Repr

/-- The instruction formats (30_encoding.md R57). -/
inductive Format where
  /-- One cell, no operand. -/
  | f0
  /-- Two cells, one source operand. -/
  | f1s
  /-- Two cells, one destination operand. -/
  | f1d
  /-- Three cells, two source operands. -/
  | f2
  /-- Four cells, two source operands and a destination. -/
  | f3
  deriving DecidableEq, Repr

/-- The ten instructions (30_encoding.md R55); `m0`, `m1`, `m2` are the modes of operands 0, 1, 2. -/
inductive Instr where
  /-- ADD, opcode 1 (40_alu.md R72). -/
  | add (m0 m1 m2 : Mode)
  /-- MUL, opcode 2 (40_alu.md R73). -/
  | mul (m0 m1 m2 : Mode)
  /-- IN, opcode 3 (41_io.md R79). -/
  | inp (m0 : Mode)
  /-- OUT, opcode 4 (41_io.md R80). -/
  | out (m0 : Mode)
  /-- JT, opcode 5 (42_control.md R82). -/
  | jt (m0 m1 : Mode)
  /-- JF, opcode 6 (42_control.md R83). -/
  | jf (m0 m1 : Mode)
  /-- LT, opcode 7 (40_alu.md R74). -/
  | lt (m0 m1 m2 : Mode)
  /-- EQ, opcode 8 (40_alu.md R75). -/
  | eq (m0 m1 m2 : Mode)
  /-- ARB, opcode 9 (43_relbase.md R87). -/
  | arb (m0 : Mode)
  /-- HLT, opcode 99 (42_control.md R85). -/
  | hlt
  deriving DecidableEq, Repr

end Sys2Proof
end

