-- ==== Sys2Proof/WellFormed.lean ====
section
/-! DEFINITION. Which instructions the decoder can give: a destination operand is never Immediate (30_encoding.md R61).
Every other combination of modes is legal (R57). -/

namespace Sys2Proof

/-- A destination operand is Position or Relative (30_encoding.md R57, R61). -/
def Mode.isDestination : Mode → Bool
  | .position => true
  | .immediate => false
  | .relative => true

/-- An instruction is well formed when its destination operand, if it has one, is no Immediate (30_encoding.md R61):
operand 2 of ADD, MUL, LT, EQ and operand 0 of IN. -/
def Instr.wf : Instr → Bool
  | .add _ _ m2 => m2.isDestination
  | .mul _ _ m2 => m2.isDestination
  | .inp m0 => m0.isDestination
  | .out _ => true
  | .jt _ _ => true
  | .jf _ _ => true
  | .lt _ _ m2 => m2.isDestination
  | .eq _ _ m2 => m2.isDestination
  | .arb _ => true
  | .hlt => true

end Sys2Proof
end

