-- ==== Sys2Proof/Decode.lean ====
section
/-! DEFINITION. The decoder (30_encoding.md R49 to R54, R56, R61 to R63): a pure function of one instruction word,
total, with a name for each rejection. After it the encoder (R68) and the host's reading of a table word. -/

namespace Sys2Proof

/-- The decimal digit of `w` at position `k`, counted from the right (00_scope.md section 6); `0` when `w` is too short
(30_encoding.md R52). -/
def digit (w k : Nat) : Nat := w / 10 ^ k % 10

/-- The mode of a mode digit (30_encoding.md R54); `none` for the digits 3 to 9, which have no meaning. -/
def modeOfDigit : Nat → Option Mode
  | 0 => some .position
  | 1 => some .immediate
  | 2 => some .relative
  | _ => none

/-- The digit of a mode (30_encoding.md R54). -/
def Mode.toDigit : Mode → Nat
  | .position => 0
  | .immediate => 1
  | .relative => 2

/-- Why the decoder rejects a word, one name per check of 30_encoding.md R62. -/
inductive DecodeError where
  /-- Check 1: the word is negative (R49). -/
  | negativeWord
  /-- Check 2: one of the three mode digits is above 2, used or not (R54). -/
  | badModeDigit
  /-- Check 3: the opcode is none of 1 to 9, 99 (R56). -/
  | unknownOpcode
  /-- Check 4: Immediate mode on a destination operand (R61). -/
  | immediateDestination
  deriving DecidableEq, Repr

/-- Check 4 of the decoder (30_encoding.md R61): an instruction with an Immediate destination is rejected. -/
def checkDestination (i : Instr) : Except DecodeError Instr :=
  if i.wf then .ok i else .error .immediateDestination

/-- Checks 3 and 4: the instruction of opcode `op` (30_encoding.md R55, R56). A mode digit the format does not use is
dropped (R57). -/
def decodeOpcode (op : Nat) (m0 m1 m2 : Mode) : Except DecodeError Instr :=
  match op with
  | 1 => checkDestination (.add m0 m1 m2)
  | 2 => checkDestination (.mul m0 m1 m2)
  | 3 => checkDestination (.inp m0)
  | 4 => checkDestination (.out m0)
  | 5 => checkDestination (.jt m0 m1)
  | 6 => checkDestination (.jf m0 m1)
  | 7 => checkDestination (.lt m0 m1 m2)
  | 8 => checkDestination (.eq m0 m1 m2)
  | 9 => checkDestination (.arb m0)
  | 99 => checkDestination .hlt
  | _ => .error .unknownOpcode

/-- Checks 2 to 4, for a word that is not negative: the three mode digits at positions 2, 3, 4 are looked up whatever
the opcode (30_encoding.md R51, R54), then the opcode, `w mod 100` (R50). Digits at position 5 and above are not
examined (R53). -/
def decodeNat (w : Nat) : Except DecodeError Instr :=
  match modeOfDigit (digit w 2), modeOfDigit (digit w 3), modeOfDigit (digit w 4) with
  | some m0, some m1, some m2 => decodeOpcode (w % 100) m0 m1 m2
  | _, _, _ => .error .badModeDigit

/-- The decoder (30_encoding.md, the block after R54), its checks in the order of R62. -/
def decode (w : Int) : Except DecodeError Instr :=
  if w < 0 then .error .negativeWord else decodeNat w.toNat

/-- The opcode of an instruction (30_encoding.md R55). -/
def Instr.opcode : Instr → Nat
  | .add _ _ _ => 1
  | .mul _ _ _ => 2
  | .inp _ => 3
  | .out _ => 4
  | .jt _ _ => 5
  | .jf _ _ => 6
  | .lt _ _ _ => 7
  | .eq _ _ _ => 8
  | .arb _ => 9
  | .hlt => 99

/-- The format of an instruction: a function of the opcode alone (30_encoding.md R57). -/
def Instr.format : Instr → Format
  | .add _ _ _ => .f3
  | .mul _ _ _ => .f3
  | .inp _ => .f1d
  | .out _ => .f1s
  | .jt _ _ => .f2
  | .jf _ _ => .f2
  | .lt _ _ _ => .f3
  | .eq _ _ _ => .f3
  | .arb _ => .f1s
  | .hlt => .f0

/-- How many operands, and so how many literal cells, a format has (30_encoding.md R57). -/
def Format.operands : Format → Nat
  | .f0 => 0
  | .f1s => 1
  | .f1d => 1
  | .f2 => 2
  | .f3 => 3

/-- The length of an instruction in cells (30_encoding.md R57): the instruction word and its literals. -/
def Instr.length (i : Instr) : Nat := 1 + i.format.operands

/-- The modes of an instruction's operands, operand 0 first. -/
def Instr.modes : Instr → List Mode
  | .add m0 m1 m2 => [m0, m1, m2]
  | .mul m0 m1 m2 => [m0, m1, m2]
  | .inp m0 => [m0]
  | .out m0 => [m0]
  | .jt m0 m1 => [m0, m1]
  | .jf m0 m1 => [m0, m1]
  | .lt m0 m1 m2 => [m0, m1, m2]
  | .eq m0 m1 m2 => [m0, m1, m2]
  | .arb m0 => [m0]
  | .hlt => []

/-- The decimal number that mode digits make above the opcode, operand 0 lowest (30_encoding.md R51). -/
def modeDigits : List Mode → Nat
  | [] => 0
  | m :: ms => m.toDigit + 10 * modeDigits ms

/-- The instruction word of an instruction, unused modes `0` and no digit above position 4 (30_encoding.md R68):
`op + 100*m0 + 1000*m1 + 10000*m2`. -/
def encode (i : Instr) : Int := (i.opcode + 100 * modeDigits i.modes : Nat)

/-- The cells of an instruction: its word, then its literals in operand order (30_encoding.md R48, R68). -/
def encodeCells (i : Instr) (literals : List Int) : List Int := encode i :: literals

/-- An operand as the assembler notation writes it (30_encoding.md R68): `[n]`, `#n`, `[rb+n]`. -/
structure Operand where
  /-- The addressing mode. -/
  mode : Mode
  /-- What the literal cell holds. -/
  literal : Int
  deriving DecidableEq, Repr

/-- `[n]` (30_encoding.md R68). -/
def Operand.pos (n : Int) : Operand := { mode := .position, literal := n }

/-- `#n` (30_encoding.md R68). -/
def Operand.imm (n : Int) : Operand := { mode := .immediate, literal := n }

/-- `[rb+n]` (30_encoding.md R68). -/
def Operand.rel (n : Int) : Operand := { mode := .relative, literal := n }

/-- `ADD s0, s1, d2` and the other F3 mnemonics (30_encoding.md R68). -/
def asmF3 (mk : Mode → Mode → Mode → Instr) (s0 s1 d2 : Operand) : List Int :=
  encodeCells (mk s0.mode s1.mode d2.mode) [s0.literal, s1.literal, d2.literal]

/-- `JT s0, s1` and `JF s0, s1` (30_encoding.md R68). -/
def asmF2 (mk : Mode → Mode → Instr) (s0 s1 : Operand) : List Int :=
  encodeCells (mk s0.mode s1.mode) [s0.literal, s1.literal]

/-- `IN d0`, `OUT s0` and `ARB s0` (30_encoding.md R68). -/
def asmF1 (mk : Mode → Instr) (o : Operand) : List Int :=
  encodeCells (mk o.mode) [o.literal]

/-- `HLT` (30_encoding.md R68). -/
def asmF0 (mk : Instr) : List Int := encodeCells mk []

/-- Cell `k` of an instruction whose bits are `w`: 64 bits per cell (`XLEN = 64`, 00_scope.md R2), the first cell in
bits 63..0, read as a two's-complement number (DESIGN CHOICE, log 21). -/
def cellOfBits (w k : Nat) : Int := (BitVec.ofNat 64 (w >>> (64 * k))).toInt

/-- The bits of an instruction of the opcode table: every bit from `nbits` up is 0. -/
def tableBits (nbits w : Nat) : Nat := w % 2 ^ nbits

/-- What the decoder reads from an instruction whose bits are `w`: the instruction word is its first cell. -/
def decodeTableWord (nbits w : Nat) : Option Instr :=
  match decode (cellOfBits (tableBits nbits w) 0) with
  | .ok i => some i
  | .error _ => none

end Sys2Proof
end

