-- ==== Sys2Proof/Config.lean ====
section
/-! DEFINITION. The implementation parameters (00_scope.md section 5): XLEN and the wiring. The spec leaves no value
undefined after an instruction, so there is no free value here. -/

namespace Sys2Proof

/-- `XLEN`, the width of a word: a number of bits, or `infinity` (00_scope.md R2, decision D1). -/
inductive XLen where
  /-- A two's-complement range of `n` bits. -/
  | bits (n : Nat)
  /-- `XLEN = infinity`: every integer is a word and the range check never fails. -/
  | infinite
  deriving DecidableEq, Repr

/-- Who owns an end of a channel (00_scope.md R6, R7): the host, or one machine of the wiring, by its number there. -/
inductive Agent where
  | host
  | machine (k : Nat)
  deriving DecidableEq, Repr

/-- The two ends of one channel (44_channel.md R91). -/
structure Ends where
  /-- The one agent that pushes. -/
  producer : Agent
  /-- The one agent that pops. -/
  consumer : Agent
  deriving DecidableEq, Repr

/-- The two ports of one machine (10_state.md R19), each a channel by its number. -/
structure Ports where
  /-- The input channel. -/
  inch : Nat
  /-- The output channel. -/
  outch : Nat
  deriving DecidableEq, Repr

/-- The wiring (00_scope.md R7), fixed before any machine is spawned: `NCHAN` is the length of `ends`, `NMACH` the
length of `ports`. -/
structure Wiring where
  /-- For each channel, its one producer and its one consumer. -/
  ends : List Ends
  /-- For each machine, its input channel and its output channel. -/
  ports : List Ports
  deriving DecidableEq, Repr

/-- The parameters of the step relation that stay fixed (00_scope.md R9). They stand in State, and no step changes
them, because the step takes no other argument: a statement about every state holds for every XLEN and every wiring. -/
structure Config where
  /-- `XLEN` (R2). -/
  xlen : XLen
  /-- `NMACH`, `NCHAN` and the wiring (R7). -/
  wiring : Wiring
  deriving DecidableEq, Repr

/-- Two machines that are not wired to each other, each with the host on both ends (60_exceptions.md R117): machine 0 on
channels 0 (in) and 1 (out), machine 1 on channels 2 (in) and 3 (out). -/
def Wiring.twoLoops : Wiring :=
  { ends := [{ producer := .host, consumer := .machine 0 }, { producer := .machine 0, consumer := .host },
             { producer := .host, consumer := .machine 1 }, { producer := .machine 1, consumer := .host }]
    ports := [{ inch := 0, outch := 1 }, { inch := 2, outch := 3 }] }

/-- The configuration of the reset state: `XLEN = 64`, this spec's value (00_scope.md R2, D1), and a wiring of two
machines (DESIGN CHOICE, log 6). -/
def Config.ofSpec : Config := { xlen := .bits 64, wiring := Wiring.twoLoops }

end Sys2Proof
end

