-- ==== Sys2Proof/Machine/State.lean ====
section
/-! DEFINITION. The state of the whole system as plain data (10_state.md R10, R20, R29), the events of its environment
(60_exceptions.md R119, R142), the stops and refusals of a step, and reset (R26, R126). -/

namespace Sys2Proof.Machine

open Sys2Proof

/-- Memory (10_state.md R11): (address, word) pairs, addresses strictly rising, no listed word `0`; an unlisted address
reads `0`. The cell is the smallest unit, so no bytes (20_memory.md R31, R37; DEDUCED, log 1). -/
abbrev Memory := List (Nat × Int)

/-- The run status (10_state.md R16). -/
inductive Status where
  | running
  | halted
  | faulted
  deriving DecidableEq, Repr

/-- The fault cause (10_state.md R18). -/
inductive Cause where
  /-- Code 0: no fault. -/
  | none
  /-- Code 1: DecodeFault (60_exceptions.md R102). -/
  | decode
  /-- Code 2: AddressingFault (60_exceptions.md R103). -/
  | addressing
  /-- Code 3: NegativeAddressFault (60_exceptions.md R104). -/
  | negativeAddress
  /-- Code 4: OverflowFault (60_exceptions.md R106). -/
  | overflow
  deriving DecidableEq, Repr

/-- A channel: its queue, head first, and nothing else (10_state.md R20). Its two ends are part of the wiring
(44_channel.md R91), in `Config`. -/
structure Channel where
  /-- The words it holds, oldest first (44_channel.md R89). -/
  q : List Int
  deriving DecidableEq, Repr

/-- One machine: the tuple of 10_state.md R10 and the binding of its ports (R19). -/
structure Mach where
  /-- Memory contents (R11). -/
  mem : Memory
  /-- Extent of the backing store (R12). -/
  ext : Nat
  /-- Program counter (R13). -/
  pc : Nat
  /-- Relative base (R14). -/
  rb : Int
  /-- Last emitted value (R15); it counts only when `outv` is set. -/
  out : Int
  /-- `out` holds a value (R15). -/
  outv : Bool
  /-- Run status (R16). -/
  status : Status
  /-- Force-halt request (R17). -/
  fh : Bool
  /-- Inside the blocking pop of IN (R17). -/
  blk : Bool
  /-- Fault cause (R18). -/
  cause : Cause
  /-- The input port's channel, by its number (R19). -/
  inch : Nat
  /-- The output port's channel, by its number (R19). -/
  outch : Nat
  deriving DecidableEq, Repr

/-- The host operations (60_exceptions.md R142), one constructor per row of its table. A machine's handle is its number,
a channel is named by its number. -/
inductive HostOp where
  /-- Create the next channel of the wiring (44_channel.md R90, R91). -/
  | createChannel
  /-- `spawn(image, inch, outch)` (70_reset_and_hazards.md R126). -/
  | spawn (image : List Int) (inch outch : Nat)
  /-- `push(ch, v)` (44_channel.md R92, R99). -/
  | push (ch : Nat) (v : Int)
  /-- `pop(ch)` (44_channel.md R93). -/
  | pop (ch : Nat)
  /-- `try_pop(ch)` (44_channel.md R94). -/
  | tryPop (ch : Nat)
  /-- `force_halt()` on machine `k` (60_exceptions.md R112). -/
  | forceHalt (k : Nat)
  /-- `wait()` on machine `k` (60_exceptions.md R120). -/
  | wait (k : Nat)
  /-- `last_output()` of machine `k` (60_exceptions.md R121). -/
  | lastOutput (k : Nat)
  /-- `dump()` of machine `k` (20_memory.md R47). -/
  | dump (k : Nat)
  deriving DecidableEq, Repr

/-- An element of the schedule (60_exceptions.md R119): which agent moves next and, for the host, what it does. -/
inductive Event where
  /-- Machine `k` takes its step. -/
  | run (k : Nat)
  /-- The host performs one operation. -/
  | host (op : HostOp)
  deriving DecidableEq, Repr

/-- What a host operation returned (60_exceptions.md R142, column 'returns'). -/
inductive Reply where
  /-- The channel just created. -/
  | channel (ch : Nat)
  /-- The handle of the machine just spawned. -/
  | handle (k : Nat)
  /-- A popped word: `pop`, or `Value(v)` of `try_pop`. -/
  | value (v : Int)
  /-- `Empty` of `try_pop`. -/
  | empty
  /-- `wait()`: the status reached and the cause. -/
  | stopped (status : Status) (cause : Cause)
  /-- `last_output()`: the last emitted value, or no value. -/
  | lastOutput (v : Option Int)
  /-- `dump()`: `ext` and the cells `0 .. ext-1`. -/
  | memory (ext : Nat) (cells : List Int)
  deriving DecidableEq, Repr

/-- The system (10_state.md R29). Once a machine has been spawned the machines are numbered along `before ++ mach ::
after`, in the order they were spawned; `mach` is the one in focus. Before the first spawn there is no machine:
`anyMachine` is clear and `mach` is an empty place (DESIGN CHOICE, log 6). -/
structure State where
  /-- The parameters, which no step changes (00_scope.md R9). -/
  cfg : Config
  /-- The model's own field: a machine has been spawned (00_scope.md R6, 70_reset_and_hazards.md R130; log 6). -/
  anyMachine : Bool
  /-- The machine in focus. -/
  mach : Mach
  /-- The machines numbered below it. -/
  before : List Mach
  /-- The machines numbered above it. -/
  after : List Mach
  /-- The channels, by number. -/
  chans : List Channel
  /-- The model's own field: the events to come, next first (60_exceptions.md R119). When it is empty the environment
  does nothing more and the machines step in turn (DESIGN CHOICE, log 4). -/
  schedule : List Event
  /-- The model's own field: what the host's operations returned, oldest first (DESIGN CHOICE, log 12). -/
  replies : List Reply
  deriving DecidableEq, Repr

/-- Why there is no step: in each case the spec gives the agent no enabled step, so nothing happens. These are no faults
of the hardware (those are next states, 60_exceptions.md R105). DESIGN CHOICE, log 5. -/
inductive Fault where
  /-- Raised by the step of a machine whose status is Halted (30_encoding.md R64, 60_exceptions.md R110). Safe: the
  hardware does nothing more there. -/
  | machineHalted
  /-- Raised by the step of a machine whose status is Faulted (30_encoding.md R64, 60_exceptions.md R109). Safe: the
  hardware does nothing more there. -/
  | machineFaulted
  /-- Raised by the step of a machine that waits in IN on an empty channel (41_io.md R78). Safe: the machine has no
  enabled step until another agent pushes. -/
  | inputEmpty
  /-- Raised by the step of a system in which no machine has been spawned and no event is to come
  (70_reset_and_hazards.md R130). Safe: there is no machine that could move. -/
  | noMachine
  /-- Raised by a host operation that is not enabled: `pop` of an empty channel, `wait` or `dump` on a running machine
  (60_exceptions.md R142). Safe: the operation simply waits. -/
  | hostWaits
  deriving DecidableEq, Repr

/-- What the model declines to give a meaning. -/
inductive Refusal where
  /-- An arm of exec whose instruction has no meaning yet. No arm is refused. Safe: nothing is claimed. -/
  | notModelled (mnemonic : String)
  /-- A host push or a spawn with a value outside the word range (00_scope.md R8, D22). Safe: nothing is claimed. -/
  | notAWord
  /-- An event that names a machine never spawned. Safe: there is no such handle. -/
  | noSuchMachine
  /-- A host operation that names a channel never created. Safe: there is no such channel. -/
  | noSuchChannel
  /-- The creation of a channel when all `NCHAN` channels of the wiring exist (00_scope.md R7). Safe: the wiring has no
  further channel. -/
  | beyondTheWiring
  /-- A spawn in a wiring that does not give every channel one producer and one consumer, or of a machine that the
  wiring does not have or that has been spawned (44_channel.md R91, D29, U5). Safe: nothing is claimed. -/
  | wiringBroken
  /-- A host `pop` or `try_pop` on a consumer end that a machine owns, or a host `push` on a channel from a machine to
  the host, which is no seeding (44_channel.md R98, R99, 60_exceptions.md R142). Safe: the host cannot do it. -/
  | notTheHostsEnd
  /-- IN or OUT on a port bound to no channel. Safe: no state that meets the invariant has such a port
  (10_state.md R19). -/
  | unboundPort
  deriving DecidableEq, Repr

/-- A machine just spawned with an empty image on channels `inch` and `outch` (10_state.md R26). PRESUMED: `rb = 0`
(log 7). DESIGN CHOICE: `out` holds `0` while it has no value (log 8). -/
def Mach.empty (inch outch : Nat) : Mach :=
  { mem := [], ext := 0, pc := 0, rb := 0, out := 0, outv := false, status := .running, fh := false, blk := false,
    cause := .none, inch := inch, outch := outch }

/-- The system before the host has done anything (70_reset_and_hazards.md R130): the parameters are fixed, and there is
no channel and no machine. -/
def State.boot (cfg : Config) : State :=
  { cfg := cfg
    anyMachine := false
    mach := Mach.empty 0 0
    before := []
    after := []
    chans := []
    schedule := []
    replies := [] }

/-- The system right after reset: one machine just spawned (70_reset_and_hazards.md R126) with nothing in memory, the
host on both ends (60_exceptions.md R117), its two channels empty (44_channel.md R90), another machine of the wiring not
yet spawned. DESIGN CHOICE: this system (log 6). -/
def State.reset : State :=
  { cfg := Config.ofSpec
    anyMachine := true
    mach := Mach.empty 0 1
    before := []
    after := []
    chans := [{ q := [] }, { q := [] }]
    schedule := []
    replies := [] }

end Sys2Proof.Machine
end

