-- ==== Sys2Proof/Machine/Ops.lean ====
section
/-! DEFINITION. The named operations over memory, registers, channels and machines: MemRead and MemWrite (20_memory.md
R33, R34), the advance of `pc` (30_encoding.md R66), raising a fault (60_exceptions.md R105; there is no return from
one, R109), the channel operations (44_channel.md R92, R93) and the places of the machines. -/

namespace Sys2Proof.Machine

open Sys2Proof

/-! ### Memory -/

/-- What an address that memory does not list reads as (10_state.md R11). -/
def Memory.unlisted : Int := 0

/-- `mem[a]`, with no side effect (10_state.md R11). -/
def Memory.read : Memory → Nat → Int
  | [], _ => Memory.unlisted
  | (b, w) :: rest, a =>
    if a = b then w else if a < b then Memory.unlisted else Memory.read rest a

/-- `mem[a] <- v`, keeping the canonical form: writing what an unlisted address reads as removes the entry. -/
def Memory.write : Memory → Nat → Int → Memory
  | [], a, v => if v = Memory.unlisted then [] else [(a, v)]
  | (b, w) :: rest, a, v =>
    if a < b then (if v = Memory.unlisted then (b, w) :: rest else (a, v) :: (b, w) :: rest)
    else if a = b then (if v = Memory.unlisted then rest else (a, v) :: rest)
    else (b, w) :: Memory.write rest a v

/-- The canonical form from address `lo` up: addresses strictly rising and no listed word that an unlisted address reads
as. -/
def Memory.wfFrom : Nat → Memory → Bool
  | _, [] => true
  | lo, (b, w) :: rest => decide (lo ≤ b) && decide (w ≠ Memory.unlisted) && Memory.wfFrom (b + 1) rest

/-- The canonical form of memory. -/
def Memory.wf (m : Memory) : Bool := Memory.wfFrom 0 m

/-- The memory that holds the words of `image` from address `a` on (10_state.md R26). -/
def Memory.ofImage : Nat → List Int → Memory
  | _, [] => []
  | a, v :: vs =>
    if v = Memory.unlisted then Memory.ofImage (a + 1) vs else (a, v) :: Memory.ofImage (a + 1) vs

/-! ### One machine -/

/-- Growth: `ext <- max(ext, a + 1)` (10_state.md R12). -/
def Mach.grow (m : Mach) (a : Nat) : Mach := { m with ext := max m.ext (a + 1) }

/-- The growth of a run of accesses, in their order (20_memory.md R36). -/
def Mach.growAll (m : Mach) (as : List Nat) : Mach := as.foldl Mach.grow m

/-- The content of cell `a`, with no side effect. -/
def Mach.cell (m : Mach) (a : Nat) : Int := m.mem.read a

/-- `MemRead(a, 1)`: grow first, then the content (20_memory.md R33). -/
def Mach.memRead (m : Mach) (a : Nat) : Int × Mach :=
  let m' := m.grow a
  (m'.cell a, m')

/-- `MemWrite(a, 1, v)`: grow first, then write (20_memory.md R34). -/
def Mach.memWrite (m : Mach) (a : Nat) (v : Int) : Mach :=
  let m' := m.grow a
  { m' with mem := m'.mem.write a v }

/-- `pc <- pc + L`, exact (30_encoding.md R66, 40_alu.md R76). -/
def Mach.advance (m : Mach) (len : Nat) : Mach := { m with pc := m.pc + len }

/-- `pc <- t`, for a jump target that is not negative (42_control.md R84). -/
def Mach.jump (m : Mach) (t : Nat) : Mach := { m with pc := t }

/-- `blk <- b` (10_state.md R17). -/
def Mach.setBlk (m : Mach) (b : Bool) : Mach := { m with blk := b }

/-- `rb <- r` (43_relbase.md R87). -/
def Mach.setRb (m : Mach) (r : Int) : Mach := { m with rb := r }

/-- `out <- v` and `outv <- 1` (10_state.md R15). -/
def Mach.setOut (m : Mach) (v : Int) : Mach := { m with out := v, outv := true }

/-- Raising a fault (60_exceptions.md R105): `status` and `cause` are written and nothing else; `pc` stays at the
faulting instruction. There is no handler and no return (R109). -/
def Mach.raise (m : Mach) (c : Cause) : Mach := { m with status := .faulted, cause := c }

/-- The halt: HLT (42_control.md R85) and the force-halt seen at a boundary (60_exceptions.md R113). -/
def Mach.halt (m : Mach) : Mach := { m with status := .halted }

/-- The code of a cause (10_state.md R18, 60_exceptions.md R101). -/
def Cause.code : Cause → Nat
  | .none => 0
  | .decode => 1
  | .addressing => 2
  | .negativeAddress => 3
  | .overflow => 4

/-- The fault that a rejection of the decoder raises (60_exceptions.md R102, R103). -/
def causeOfDecodeError : DecodeError → Cause
  | .negativeWord => .decode
  | .badModeDigit => .addressing
  | .unknownOpcode => .decode
  | .immediateDestination => .addressing

/-- A machine just spawned (10_state.md R26, 70_reset_and_hazards.md R126): the image from address 0, `ext` its length,
everything else at its reset value. -/
def Mach.spawned (image : List Int) (inch outch : Nat) : Mach :=
  { Mach.empty inch outch with mem := Memory.ofImage 0 image, ext := image.length }

/-! ### The result of a part of an instruction -/

/-- What evaluating a part of an instruction gives: a value and the machine with its growth, or a fault with the growth
made before it (60_exceptions.md R105). -/
inductive Eval (α : Type) where
  | ok (v : α) (m : Mach)
  | raised (c : Cause) (m : Mach)
  deriving DecidableEq, Repr

/-- Go on with the value, or stop at the first fault (30_encoding.md R65). -/
def Eval.bind {α β : Type} (e : Eval α) (k : α → Mach → Eval β) : Eval β :=
  match e with
  | .ok v m => k v m
  | .raised c m => .raised c m

/-! ### The system -/

/-- The state with another machine in focus at the same place. -/
def State.withMach (s : State) (m : Mach) : State := { s with mach := m }

/-- The number of the machine in focus. -/
def State.self (s : State) : Nat := s.before.length

/-- All machines by number (60_exceptions.md R116); none before the first spawn. -/
def State.machines (s : State) : List Mach := if s.anyMachine then s.before ++ s.mach :: s.after else []

/-- The state with one machine more, under the next number (70_reset_and_hazards.md R126): the first one comes into
focus, a later one leaves the focus where it is. -/
def State.addMachine (s : State) (m : Mach) : State :=
  if s.anyMachine then { s with after := s.after ++ [m] }
  else { s with anyMachine := true, mach := m, before := [], after := [] }

/-- The state with machine `k` in focus; `none` when there is no such machine. -/
def State.focus (s : State) (k : Nat) : Option State :=
  match s.machines.drop k with
  | [] => none
  | m :: rest => some { s with mach := m, before := s.machines.take k, after := rest }

/-- Set the force-halt flag of a machine (60_exceptions.md R112). -/
def Mach.forceHalt (m : Mach) : Mach := { m with fh := true }

/-- The state after `f` has changed machine `k`, the focus staying where it is. -/
def State.modifyMachine (s : State) (k : Nat) (f : Mach → Mach) : State :=
  if k < s.before.length then { s with before := s.before.modify k f }
  else if k = s.before.length then { s with mach := f s.mach }
  else { s with after := s.after.modify (k - s.before.length - 1) f }

/-- The end of an instruction that does nothing but change its machine: its result, or the fault it takes. -/
def State.finish (s : State) (e : Eval Unit) : Host.Outcome State Fault Refusal :=
  match e with
  | .ok _ m => .next (s.withMach m)
  | .raised c m => .next (s.withMach (m.raise c))

/-! ### Channels -/

/-- `push(ch, v)`: append at the tail (44_channel.md R92). -/
def Channel.push (c : Channel) (v : Int) : Channel := { c with q := c.q ++ [v] }

/-- `pop(ch)`: the head and the channel without it; `none` while it is empty (44_channel.md R93). -/
def Channel.pop (c : Channel) : Option (Int × Channel) :=
  match c.q with
  | [] => none
  | v :: rest => some (v, { c with q := rest })

/-- The state with channel `ch` replaced. -/
def State.setChannel (s : State) (ch : Nat) (c : Channel) : State := { s with chans := s.chans.set ch c }

/-- The channel of the focused machine's input port (10_state.md R19). -/
def State.inChannel (s : State) : Option Channel := s.chans[s.mach.inch]?

/-- The channel of the focused machine's output port (10_state.md R19). -/
def State.outChannel (s : State) : Option Channel := s.chans[s.mach.outch]?

end Sys2Proof.Machine
end

