-- ==== Sys2Proof/Machine/Flags.lean ====
section
/-! DEFINITION. The ALU's results (40_alu.md R70, R71). The hardware has no flags or condition codes (10_state.md R22):
what a flag would hold is the word `1` or `0` that LT and EQ store, and the range check that faults. -/

namespace Sys2Proof.Machine

open Sys2Proof

/-- `v` is a word: it lies in `WMIN .. WMAX`, and every integer does when `XLEN = infinity` (00_scope.md R2). -/
def isWord (x : XLen) (v : Int) : Bool :=
  match x with
  | .bits n => decide (wmin n ≤ v) && decide (v ≤ wmax n)
  | .infinite => true

/-- `chk(v)`: the exact result, or OverflowFault (40_alu.md R70). It never wraps and never saturates. -/
def chk (x : XLen) (v : Int) : Except Cause Int :=
  if isWord x v then .ok v else .error .overflow

/-- The exact signed sum, checked (40_alu.md R72). -/
def aluAdd (x : XLen) (a b : Int) : Except Cause Int := chk x (a + b)

/-- The exact signed product, checked (40_alu.md R73). -/
def aluMul (x : XLen) (a b : Int) : Except Cause Int := chk x (a * b)

/-- Signed less-than, `1` or `0`; no subtraction and so no overflow (40_alu.md R74). -/
def aluLt (a b : Int) : Int := if a < b then 1 else 0

/-- Equality of whole words, `1` or `0` (40_alu.md R75). -/
def aluEq (a b : Int) : Int := if a = b then 1 else 0

/-- Bring a checked result into the evaluation of an instruction: the fault is raised before any write (40_alu.md R77).
-/
def checked (r : Except Cause Int) (m : Mach) : Eval Int :=
  match r with
  | .ok v => .ok v m
  | .error c => .raised c m

end Sys2Proof.Machine
end

