-- ==== Sys2Proof/Machine/Operands.lean ====
section
/-! DEFINITION. Operand resolution: `lit`, `load`, `dest` (30_encoding.md R58 to R60), over the effective address that
each mode gives. -/

namespace Sys2Proof.Machine

open Sys2Proof

/-- The literal cell of operand `i` (30_encoding.md R58); the address is exact (40_alu.md R76). -/
def Mach.litCell (m : Mach) (i : Nat) : Nat := m.pc + 1 + i

/-- The literal of operand `i`, with no side effect. -/
def Mach.literal (m : Mach) (i : Nat) : Int := m.cell (m.litCell i)

/-- The effective address of an operand whose literal is `x`, before the check that it is no negative number
(30_encoding.md R59, R60): the literal, or `rb` plus the literal, exact. An Immediate operand has none. -/
def Mach.address (m : Mach) (mode : Mode) (x : Int) : Option Int :=
  match mode with
  | .position => some x
  | .immediate => none
  | .relative => some (m.rb + x)

/-- `load(i)` (30_encoding.md R59): the literal cell is read first, then the operand cell. -/
def Mach.load (m : Mach) (i : Nat) (mode : Mode) : Eval Int :=
  let (x, m1) := m.memRead (m.litCell i)
  match m1.address mode x with
  | none => .ok x m1
  | some a =>
    if a < 0 then .raised .negativeAddress m1
    else
      let (v, m2) := m1.memRead a.toNat
      .ok v m2

/-- `dest(i)` (30_encoding.md R60): the address of a destination; it reads the literal cell only. The decoder lets no
Immediate destination through (R61); here one would raise the same AddressingFault (DEDUCED, log 17). -/
def Mach.dest (m : Mach) (i : Nat) (mode : Mode) : Eval Nat :=
  let (x, m1) := m.memRead (m.litCell i)
  match m1.address mode x with
  | none => .raised .addressing m1
  | some a => if a < 0 then .raised .negativeAddress m1 else .ok a.toNat m1

/-! What the two give, said of the machine before the instruction. -/

/-- The effective address of operand `i` of the instruction at `pc`. -/
def Mach.opAddress (m : Mach) (i : Nat) (mode : Mode) : Option Int := m.address mode (m.literal i)

/-- The operand can be read: it is Immediate or its effective address is not negative (20_memory.md R35). -/
def Mach.readable (m : Mach) (i : Nat) (mode : Mode) : Bool :=
  match m.opAddress i mode with
  | none => true
  | some a => decide (0 ≤ a)

/-- The value of source operand `i` (30_encoding.md R59). -/
def Mach.value (m : Mach) (i : Nat) (mode : Mode) : Int :=
  match m.opAddress i mode with
  | none => m.literal i
  | some a => m.cell a.toNat

/-- The cells that loading operand `i` reads, in order (30_encoding.md R65). -/
def Mach.readCells (m : Mach) (i : Nat) (mode : Mode) : List Nat :=
  match m.opAddress i mode with
  | none => [m.litCell i]
  | some a => [m.litCell i, a.toNat]

/-- The address of destination operand `i` (30_encoding.md R60), where it has one. -/
def Mach.target (m : Mach) (i : Nat) (mode : Mode) : Option Nat :=
  match m.opAddress i mode with
  | none => none
  | some a => if a < 0 then none else some a.toNat

end Sys2Proof.Machine
end

