-- ==== Sys2Proof/Machine/Alu.lean ====
section
/-! DEFINITION. ADD, MUL, LT, EQ (40_alu.md R72 to R75), which share format F3 (R77). -/

namespace Sys2Proof.Machine

open Sys2Proof

/-- The evaluation of a format F3 instruction (40_alu.md R77, 30_encoding.md R65): `load(0)`, `load(1)`, `dest(2)`,
compute, write, advance by 4. -/
def evalF3 (alu : Int → Int → Except Cause Int) (m0 m1 m2 : Mode) (m : Mach) : Eval Unit :=
  (m.load 0 m0).bind fun a ma =>
  (ma.load 1 m1).bind fun b mb =>
  (mb.dest 2 m2).bind fun d md =>
  (checked (alu a b) md).bind fun r mr =>
  .ok () ((mr.memWrite d r).advance 4)

/-- ADD (40_alu.md R72). -/
def execAdd (m0 m1 m2 : Mode) (s : State) : Host.Outcome State Fault Refusal :=
  s.finish (evalF3 (aluAdd s.cfg.xlen) m0 m1 m2 s.mach)

/-- MUL (40_alu.md R73). -/
def execMul (m0 m1 m2 : Mode) (s : State) : Host.Outcome State Fault Refusal :=
  s.finish (evalF3 (aluMul s.cfg.xlen) m0 m1 m2 s.mach)

/-- LT (40_alu.md R74). -/
def execLt (m0 m1 m2 : Mode) (s : State) : Host.Outcome State Fault Refusal :=
  s.finish (evalF3 (fun a b => .ok (aluLt a b)) m0 m1 m2 s.mach)

/-- EQ (40_alu.md R75). -/
def execEq (m0 m1 m2 : Mode) (s : State) : Host.Outcome State Fault Refusal :=
  s.finish (evalF3 (fun a b => .ok (aluEq a b)) m0 m1 m2 s.mach)

end Sys2Proof.Machine
end

