-- ==== Sys2Proof/Machine/Control.lean ====
section
/-! DEFINITION. JT, JF, HLT (42_control.md R82 to R85). -/

namespace Sys2Proof.Machine

open Sys2Proof

/-- The evaluation of a jump (42_control.md R82, R83): `taken` says which conditions jump. The target operand is
evaluated only when the jump is taken (30_encoding.md R65), and a negative target faults in the jump (R84). -/
def evalJump (taken : Int → Bool) (m0 m1 : Mode) (m : Mach) : Eval Unit :=
  (m.load 0 m0).bind fun c mc =>
  if taken c then
    (mc.load 1 m1).bind fun t mt =>
    if t < 0 then .raised .negativeAddress mt else .ok () (mt.jump t.toNat)
  else .ok () (mc.advance 3)

/-- JT (42_control.md R82): taken when the condition is not zero. -/
def execJt (m0 m1 : Mode) (s : State) : Host.Outcome State Fault Refusal :=
  s.finish (evalJump (fun c => decide (c ≠ 0)) m0 m1 s.mach)

/-- JF (42_control.md R83): taken when the condition is zero. -/
def execJf (m0 m1 : Mode) (s : State) : Host.Outcome State Fault Refusal :=
  s.finish (evalJump (fun c => decide (c = 0)) m0 m1 s.mach)

/-- HLT (42_control.md R85): `status <- Halted`; `pc` is not advanced. -/
def execHlt (s : State) : Host.Outcome State Fault Refusal := .next (s.withMach s.mach.halt)

end Sys2Proof.Machine
end

