-- ==== Sys2Proof/Machine/Io.lean ====
section
/-! DEFINITION. IN and OUT (41_io.md R78 to R80). -/

namespace Sys2Proof.Machine

open Sys2Proof

/-- IN once its destination `d` is resolved, `m` being the machine after that (41_io.md R79): complete with the head of
the channel, or enter the wait; in the wait there is no step while the channel is empty (R78). -/
def inputAt (d : Nat) (m : Mach) (s : State) : Host.Outcome State Fault Refusal :=
  match s.inChannel with
  | none => .refused .unboundPort
  | some c =>
    match c.pop with
    | none => if m.blk then .fault .inputEmpty else .next (s.withMach (m.setBlk true))
    | some (v, c') =>
      .next ((s.setChannel m.inch c').withMach (((m.memWrite d v).setBlk false).advance 2))

/-- IN (41_io.md R79). Every fault is raised before the channel is looked at. -/
def execIn (m0 : Mode) (s : State) : Host.Outcome State Fault Refusal :=
  match s.mach.dest 0 m0 with
  | .raised c m => .next (s.withMach (m.raise c))
  | .ok d m => inputAt d m s

/-- OUT of the word `v`, `m` being the machine after the load (41_io.md R80): push, record, advance by 2, in one step.
-/
def outputOf (v : Int) (m : Mach) (s : State) : Host.Outcome State Fault Refusal :=
  match s.outChannel with
  | none => .refused .unboundPort
  | some c =>
    .next ((s.setChannel m.outch (c.push v)).withMach ((m.setOut v).advance 2))

/-- OUT (41_io.md R80). It never waits. -/
def execOut (m0 : Mode) (s : State) : Host.Outcome State Fault Refusal :=
  match s.mach.load 0 m0 with
  | .raised c m => .next (s.withMach (m.raise c))
  | .ok v m => outputOf v m s

end Sys2Proof.Machine
end

