-- ==== Sys2Proof/Machine/RelBase.lean ====
section
/-! DEFINITION. ARB (43_relbase.md R87). -/

namespace Sys2Proof.Machine

open Sys2Proof

/-- The evaluation of ARB (43_relbase.md R87): the operand is read with the old base, the new base is checked. -/
def evalArb (x : XLen) (m0 : Mode) (m : Mach) : Eval Unit :=
  (m.load 0 m0).bind fun a ma =>
  (checked (aluAdd x ma.rb a) ma).bind fun r mr =>
  .ok () ((mr.setRb r).advance 2)

/-- ARB (43_relbase.md R87). -/
def execArb (m0 : Mode) (s : State) : Host.Outcome State Fault Refusal :=
  s.finish (evalArb s.cfg.xlen m0 s.mach)

end Sys2Proof.Machine
end

