-- ==== Sys2Proof/Machine/Cycle.lean ====
section
/-! DEFINITION. The instruction cycle of the machine in focus (30_encoding.md R64). -/

namespace Sys2Proof.Machine

open Sys2Proof

/-- Fetch, decode, execute (30_encoding.md R64): the fetch grows memory, a rejected word raises its fault
(60_exceptions.md R102, R103). -/
def cycle (s : State) : Host.Outcome State Fault Refusal :=
  let (w, m) := s.mach.memRead s.mach.pc
  match decode w with
  | .ok i => exec i (s.withMach m)
  | .error e => .next (s.withMach (m.raise (causeOfDecodeError e)))

/-- The machine in focus holds in IN: its input channel is empty (41_io.md R78). -/
def State.inputIsEmpty (s : State) : Bool :=
  match s.inChannel with
  | none => false
  | some c => c.q.isEmpty

/-- One step of the machine in focus (30_encoding.md R64). A stopped machine has none, nor a system without a machine.
At a boundary (`blk = 0`) the force-halt flag is looked at before the fetch (60_exceptions.md R113); inside the wait it
is not (R114), and there is no step while the channel is empty (41_io.md R79, case c). -/
def machineStep (s : State) : Host.Outcome State Fault Refusal :=
  if s.anyMachine then
    match s.mach.status with
    | .halted => .fault .machineHalted
    | .faulted => .fault .machineFaulted
    | .running =>
      if s.mach.blk then
        if s.inputIsEmpty then .fault .inputEmpty else cycle s
      else if s.mach.fh then .next (s.withMach s.mach.halt)
      else cycle s
  else .fault .noMachine

/-- The machine in focus has an enabled step (60_exceptions.md R119): there is one, it runs, and it does not hold in IN
on an empty channel. -/
def State.enabled (s : State) : Bool :=
  s.anyMachine && decide (s.mach.status = .running) && !(s.mach.blk && s.inputIsEmpty)

/-- Machine `k` has an enabled step. -/
def State.machineEnabled (s : State) (k : Nat) : Bool :=
  match s.focus k with
  | none => false
  | some s' => s'.enabled

end Sys2Proof.Machine
end

