-- ==== Sys2Proof/Machine/HostOps.lean ====
section
/-! DEFINITION. The host's operations (60_exceptions.md R142), one definition per row of its table. -/

namespace Sys2Proof.Machine

open Sys2Proof

/-- Record what an operation returned. -/
def State.reply (s : State) (r : Reply) : State := { s with replies := s.replies ++ [r] }

/-- Create the next channel of the wiring, empty (44_channel.md R90); its number is its place in the wiring. -/
def hostCreateChannel (s : State) : Host.Outcome State Fault Refusal :=
  if s.chans.length < s.cfg.wiring.ends.length then
    let s' : State := { s with chans := s.chans ++ [{ q := [] }] }
    .next (s'.reply (.channel s.chans.length))
  else .refused .beyondTheWiring

/-- The ports of machine `k` of the wiring are ends of its own: it is the consumer of the one and the producer of the
other (44_channel.md R91). -/
def portsAgree (w : Wiring) (k : Nat) (p : Ports) : Bool :=
  (w.ends[p.inch]?.map Ends.consumer == some (.machine k)) && (w.ends[p.outch]?.map Ends.producer == some (.machine k))

/-- The agent at an end of channel `ch` is the host, or a machine of the wiring whose port is `ch` (00_scope.md R7). -/
def endAgrees (w : Wiring) (port : Ports → Nat) (ch : Nat) (a : Agent) : Bool :=
  match a with
  | .host => true
  | .machine k => w.ports[k]?.map port == some ch

/-- The wiring gives every channel one producer and one consumer, and has a machine (00_scope.md R7, 44_channel.md R91):
what the channels say of the machines and what the machines say of the channels agree. -/
def wiringOk (w : Wiring) : Bool :=
  decide (1 ≤ w.ports.length) &&
    w.ports.zipIdx.all (fun p => portsAgree w p.2 p.1) &&
    w.ends.zipIdx.all fun e =>
      endAgrees w Ports.inch e.2 e.1.consumer && endAgrees w Ports.outch e.2 e.1.producer

/-- The wiring has a machine with these ports, and it has not been spawned (00_scope.md R7, 70_reset_and_hazards.md
R129). The host may spawn the machines of the wiring in any order (R130). -/
def State.bindingAgrees (s : State) (inch outch : Nat) : Bool :=
  decide ({ inch := inch, outch := outch } ∈ s.cfg.wiring.ports) &&
    s.machines.all fun m => decide (m.inch ≠ inch ∧ m.outch ≠ outch)

/-- `spawn(image, inch, outch)` (70_reset_and_hazards.md R126): a new machine in the reset state; the channels are not
touched (R128). Every image element is a word (00_scope.md R8), the two channels exist, and the binding is the wiring's
(44_channel.md R91, D29; log 10): otherwise the model refuses. -/
def hostSpawn (image : List Int) (inch outch : Nat) (s : State) : Host.Outcome State Fault Refusal :=
  if image.all (isWord s.cfg.xlen) then
    if inch < s.chans.length ∧ outch < s.chans.length then
      if wiringOk s.cfg.wiring && s.bindingAgrees inch outch then
        .next ((s.addMachine (Mach.spawned image inch outch)).reply (.handle s.machines.length))
      else .refused .wiringBroken
    else .refused .noSuchChannel
  else .refused .notAWord

/-- The host owns the consumer end of channel `ch` (44_channel.md R91). -/
def State.hostConsumes (s : State) (ch : Nat) : Bool := s.cfg.wiring.ends[ch]?.map Ends.consumer == some .host

/-- The host may push on channel `ch` (44_channel.md R98): it owns the producer end, or the channel is the input of a
machine, where a push of the host is the seeding of R99, at any moment, since the hardware does not check it (U15; log
11). -/
def State.hostMayPush (s : State) (ch : Nat) : Bool :=
  match s.cfg.wiring.ends[ch]? with
  | none => false
  | some e => decide (e.producer = .host) || decide (e.consumer ≠ .host)

/-- `push(ch, v)` by the host (44_channel.md R92, R98, R99): always enabled where the host may push. A value that is no
word is refused (00_scope.md R8, log 19). -/
def hostPush (ch : Nat) (v : Int) (s : State) : Host.Outcome State Fault Refusal :=
  match s.chans[ch]? with
  | none => .refused .noSuchChannel
  | some c =>
    if s.hostMayPush ch then
      if isWord s.cfg.xlen v then .next (s.setChannel ch (c.push v)) else .refused .notAWord
    else .refused .notTheHostsEnd

/-- `pop(ch)` by the host (44_channel.md R93): waits while the channel is empty. -/
def hostPop (ch : Nat) (s : State) : Host.Outcome State Fault Refusal :=
  match s.chans[ch]? with
  | none => .refused .noSuchChannel
  | some c =>
    if s.hostConsumes ch then
      match c.pop with
      | none => .fault .hostWaits
      | some (v, c') => .next ((s.setChannel ch c').reply (.value v))
    else .refused .notTheHostsEnd

/-- `try_pop(ch)` by the host (44_channel.md R94): the head, or `Empty` where the channel is empty. How long it waits
before it answers `Empty` is where the event stands in the schedule (D17; DESIGN CHOICE, log 13). -/
def hostTryPop (ch : Nat) (s : State) : Host.Outcome State Fault Refusal :=
  match s.chans[ch]? with
  | none => .refused .noSuchChannel
  | some c =>
    if s.hostConsumes ch then
      match c.pop with
      | none => .next (s.reply .empty)
      | some (v, c') => .next ((s.setChannel ch c').reply (.value v))
    else .refused .notTheHostsEnd

/-- `force_halt()` on machine `k` (60_exceptions.md R112): `fh <- 1` and nothing else. -/
def hostForceHalt (k : Nat) (s : State) : Host.Outcome State Fault Refusal :=
  if k < s.machines.length then .next (s.modifyMachine k Mach.forceHalt) else .refused .noSuchMachine

/-- `wait()` on machine `k` (60_exceptions.md R120): enabled when it has stopped, changes nothing, returns status and
cause. -/
def hostWait (k : Nat) (s : State) : Host.Outcome State Fault Refusal :=
  match s.machines[k]? with
  | none => .refused .noSuchMachine
  | some m => if m.status = .running then .fault .hostWaits else .next (s.reply (.stopped m.status m.cause))

/-- The last emitted value, or no value (10_state.md R15, 60_exceptions.md R121). -/
def Mach.lastOutput (m : Mach) : Option Int := if m.outv then some m.out else none

/-- `last_output()` of machine `k` (60_exceptions.md R121): an atomic read at any time. -/
def hostLastOutput (k : Nat) (s : State) : Host.Outcome State Fault Refusal :=
  match s.machines[k]? with
  | none => .refused .noSuchMachine
  | some m => .next (s.reply (.lastOutput m.lastOutput))

/-- The cells `0 .. ext-1` (20_memory.md R47). -/
def Mach.cells (m : Mach) : List Int := (List.range m.ext).map m.cell

/-- `dump()` of machine `k` (20_memory.md R47): the memory read-back, once the machine has stopped. -/
def hostDump (k : Nat) (s : State) : Host.Outcome State Fault Refusal :=
  match s.machines[k]? with
  | none => .refused .noSuchMachine
  | some m => if m.status = .running then .fault .hostWaits else .next (s.reply (.memory m.ext m.cells))

/-- One host operation (60_exceptions.md R142). -/
def hostStep (op : HostOp) (s : State) : Host.Outcome State Fault Refusal :=
  match op with
  | .createChannel => hostCreateChannel s
  | .spawn image inch outch => hostSpawn image inch outch s
  | .push ch v => hostPush ch v s
  | .pop ch => hostPop ch s
  | .tryPop ch => hostTryPop ch s
  | .forceHalt k => hostForceHalt k s
  | .wait k => hostWait k s
  | .lastOutput k => hostLastOutput k s
  | .dump k => hostDump k s

end Sys2Proof.Machine
end

