-- ==== Sys2Proof/Machine/System.lean ====
section
/-! DEFINITION. One step of the system (60_exceptions.md R118, R119): the next event of the schedule says which agent
moves. -/

namespace Sys2Proof.Machine

open Sys2Proof

/-- One event of the schedule (60_exceptions.md R119): a machine's step, or a host operation. -/
def eventStep (e : Event) (s : State) : Host.Outcome State Fault Refusal :=
  match e with
  | .run k =>
    match s.focus k with
    | none => .refused .noSuchMachine
    | some s' => machineStep s'
  | .host op => hostStep op s

/-- The machines in a circle, from the one in focus on. -/
def State.turns (s : State) : List Nat :=
  (List.range s.machines.length).map fun d => (s.self + d) % s.machines.length

/-- The machine whose turn it is: the first one in the circle that has an enabled step. -/
def State.turn (s : State) : Option Nat := s.turns.find? s.machineEnabled

/-- The turn passes to the next machine in the circle. -/
def State.passTurn (s : State) : State := (s.focus ((s.self + 1) % s.machines.length)).getD s

/-- A machine has had its turn. -/
def endTurn (o : Host.Outcome State Fault Refusal) : Host.Outcome State Fault Refusal :=
  match o with
  | .next t => .next t.passTurn
  | .fault f => .fault f
  | .refused r => .refused r

/-- What happens next: the next event of the schedule or, when there is none, a step of the machine whose turn it is. -/
def State.nextEvent (s : State) : Option Event :=
  match s.schedule with
  | [] => s.turn.map .run
  | e :: _ => some e

/-- One step of the system (60_exceptions.md R118, R119): the next event; when the environment does nothing more, the
machines step in turn, so that none that stays enabled starves (DESIGN CHOICE, log 4). Where no machine has an enabled
step, the stop is the one of the machine in focus, or `noMachine` before the first spawn. -/
def systemStep (s : State) : Host.Outcome State Fault Refusal :=
  match s.schedule with
  | e :: rest => eventStep e { s with schedule := rest }
  | [] =>
    match s.turn with
    | some k => endTurn (eventStep (.run k) s)
    | none => machineStep s

/-- The machine with the cells of an instruction whose bits are `w` stored at its `pc`, four cells (the longest
instruction, 30_encoding.md R57), at an instruction boundary and running (DESIGN CHOICE, log 9). -/
def Mach.withProgramBits (m : Mach) (w : Nat) : Mach :=
  let m1 := m.memWrite m.pc (cellOfBits w 0)
  let m2 := m1.memWrite (m.pc + 1) (cellOfBits w 1)
  let m3 := m2.memWrite (m.pc + 2) (cellOfBits w 2)
  let m4 := m3.memWrite (m.pc + 3) (cellOfBits w 3)
  { m4 with status := .running, cause := .none, fh := false, blk := false }

/-- A machine to place a program in: before the first spawn, one on channels 0 and 1 (DESIGN CHOICE, log 9). -/
def State.withAnyMachine (s : State) : State := if s.anyMachine then s else s.addMachine (Mach.empty 0 1)

/-- The state whose very next step runs the instruction whose bits are `w`. -/
def State.withInstruction (s : State) (nbits w : Nat) : State :=
  let s' := s.withAnyMachine
  { s' with mach := s'.mach.withProgramBits (tableBits nbits w), schedule := [] }

end Sys2Proof.Machine
end

