-- ==== Sys2Proof/Machine/Step.lean ====
section
/-! DEFINITION. The step of the whole machine, and the placing of one instruction where the next step fetches. -/

namespace Sys2Proof.Machine

/-- One step of the system (60_exceptions.md R118, R119). -/
def step (s : State) : Host.Outcome State Fault Refusal := Sys2Proof.Machine.systemStep s

/-- `s` with the instruction whose bits are `w` stored where `step` fetches its next instruction. -/
def State.withFetchWord (s : State) (nbits w : Nat) : State := s.withInstruction nbits w

end Sys2Proof.Machine
end

