-- ==== Sys2Proof/Safety.lean ====
section
/-! DEFINITION. What claims are stated in: the outcomes and faults of instructions, the invariants of 10_state.md R25,
executions and weak fairness (60_exceptions.md R119), and how a run ends (R122). -/

namespace Sys2Proof.Machine

open Sys2Proof

/-- The extent after a run of accesses, in their order (20_memory.md R36). -/
def Mach.extAfter (m : Mach) (as : List Nat) : Nat := as.foldl (fun e a => max e (a + 1)) m.ext

/-- The outcome of an instruction that raises fault `c` after the accesses `as`: `status` and `cause` are written, `ext`
has grown, nothing else has changed (60_exceptions.md R105). -/
def State.faultsAfter (s : State) (c : Cause) (as : List Nat) : Host.Outcome State Fault Refusal :=
  .next (s.withMach { s.mach with status := .faulted, cause := c, ext := s.mach.extAfter as })

/-- The cells that a format F3 instruction reads, in order: both sources, then the destination's literal
(30_encoding.md R65). -/
def Mach.f3Cells (m : Mach) (m0 m1 : Mode) : List Nat :=
  m.readCells 0 m0 ++ m.readCells 1 m1 ++ [m.litCell 2]

/-- The operand faults of a format F3 instruction, in the order of 60_exceptions.md R107: `load(0)`, `load(1)`,
`dest(2)`; each leaves only the growth of the reads before it. -/
structure F3Faults (i : Instr) (m0 m1 m2 : Mode) (s : State) : Prop where
  first : s.mach.readable 0 m0 = false → exec i s = s.faultsAfter .negativeAddress [s.mach.litCell 0]
  second : s.mach.readable 0 m0 = true → s.mach.readable 1 m1 = false →
    exec i s = s.faultsAfter .negativeAddress (s.mach.readCells 0 m0 ++ [s.mach.litCell 1])
  third : s.mach.readable 0 m0 = true → s.mach.readable 1 m1 = true → s.mach.target 2 m2 = none →
    exec i s = s.faultsAfter .negativeAddress (s.mach.f3Cells m0 m1)

/-- The outcome of a format F3 instruction that completes with result `r` at address `d` (40_alu.md R77): the cell is
written, `pc` advances by 4, `ext` covers every access; nothing else changes. -/
def State.f3Stores (s : State) (m0 m1 : Mode) (d : Nat) (r : Int) : Host.Outcome State Fault Refusal :=
  .next (s.withMach { s.mach with
    mem := s.mach.mem.write d r
    pc := s.mach.pc + 4
    ext := s.mach.extAfter (s.mach.f3Cells m0 m1 ++ [d]) })

/-- A jump that is taken, its condition operand being readable (42_control.md R82 to R84): the target operand is
evaluated, a negative target faults in the jump, any other becomes `pc` as it is. -/
structure JumpTaken (i : Instr) (m0 m1 : Mode) (s : State) : Prop where
  unreadable : s.mach.readable 1 m1 = false →
    exec i s = s.faultsAfter .negativeAddress (s.mach.readCells 0 m0 ++ [s.mach.litCell 1])
  negative : s.mach.readable 1 m1 = true → s.mach.value 1 m1 < 0 →
    exec i s = s.faultsAfter .negativeAddress (s.mach.readCells 0 m0 ++ s.mach.readCells 1 m1)
  taken : s.mach.readable 1 m1 = true → 0 ≤ s.mach.value 1 m1 →
    exec i s = .next (s.withMach { s.mach with
      pc := (s.mach.value 1 m1).toNat
      ext := s.mach.extAfter (s.mach.readCells 0 m0 ++ s.mach.readCells 1 m1) })

/-- A jump that is not taken (42_control.md R82, R83): `pc + 3`, and operand 1 is not evaluated, its literal cell is not
read (30_encoding.md R65). -/
def State.fallsThrough (s : State) (m0 : Mode) : Host.Outcome State Fault Refusal :=
  .next (s.withMach { s.mach with pc := s.mach.pc + 3, ext := s.mach.extAfter (s.mach.readCells 0 m0) })

/-- The fault of a format F3 instruction (40_alu.md R77): an operand's, else, where the result is no word, Overflow. -/
def Mach.f3Fault (m : Mach) (m0 m1 m2 : Mode) (overflows : Bool) : Option Cause :=
  if m.readable 0 m0 && m.readable 1 m1 && (m.target 2 m2).isSome then
    if overflows then some .overflow else none
  else some .negativeAddress

/-- The fault of a jump (42_control.md R82 to R84): the condition's or, when it is taken, the target's. -/
def Mach.jumpFault (m : Mach) (m0 m1 : Mode) (taken : Bool) : Option Cause :=
  if m.readable 0 m0 && (!taken || m.readable 1 m1 && decide (0 ≤ m.value 1 m1)) then none else some .negativeAddress

/-- The fault that a well-formed instruction at `pc` raises, the first in the order of 60_exceptions.md R107; `none`
where it completes or, for IN, waits. -/
def Mach.faultOf (x : XLen) (m : Mach) (i : Instr) : Option Cause :=
  match i with
  | .add m0 m1 m2 => m.f3Fault m0 m1 m2 (!isWord x (m.value 0 m0 + m.value 1 m1))
  | .mul m0 m1 m2 => m.f3Fault m0 m1 m2 (!isWord x (m.value 0 m0 * m.value 1 m1))
  | .lt m0 m1 m2 => m.f3Fault m0 m1 m2 false
  | .eq m0 m1 m2 => m.f3Fault m0 m1 m2 false
  | .jt m0 m1 => m.jumpFault m0 m1 (decide (m.value 0 m0 ≠ 0))
  | .jf m0 m1 => m.jumpFault m0 m1 (decide (m.value 0 m0 = 0))
  | .inp m0 => if (m.target 0 m0).isSome then none else some .negativeAddress
  | .out m0 => if m.readable 0 m0 then none else some .negativeAddress
  | .arb m0 =>
    if m.readable 0 m0 then
      if isWord x (m.rb + m.value 0 m0) then none else some .overflow
    else some .negativeAddress
  | .hlt => none

/-- The fault of the instruction cycle at `pc`: the decoder's, else the instruction's (60_exceptions.md R101, R107). -/
def Mach.nextFault (x : XLen) (m : Mach) : Option Cause :=
  match decode (m.cell m.pc) with
  | .error e => some (causeOfDecodeError e)
  | .ok i => m.faultOf x i

/-- The machine in focus is about to execute the instruction at `pc` (30_encoding.md R64), whatever events are to come:
there is one, it runs, and it is at a boundary without a force-halt request, or inside the wait of IN with a word to
pop. -/
structure AboutToExecute (s : State) : Prop where
  spawned : s.anyMachine = true
  running : s.mach.status = .running
  boundary : s.mach.blk = false → s.mach.fh = false
  waiting : s.mach.blk = true → s.inputIsEmpty = false

/-- The part of the system that no instruction changes: the parameters, the other machines, the model's own fields, and
of the machine in focus the host's flag `fh` and the binding of the ports (10_state.md R24, R19). -/
structure SameSurroundings (s t : State) : Prop where
  cfg : t.cfg = s.cfg
  anyMachine : t.anyMachine = s.anyMachine
  before : t.before = s.before
  after : t.after = s.after
  schedule : t.schedule = s.schedule
  replies : t.replies = s.replies
  fh : t.mach.fh = s.mach.fh
  inch : t.mach.inch = s.mach.inch
  outch : t.mach.outch = s.mach.outch

/-- What an instruction does to the run status: nothing, or it takes a fault, which leaves `pc` and memory as they were
(60_exceptions.md R105). -/
def StatusKeptOrFaulted (s t : State) : Prop :=
  (t.mach.status = s.mach.status ∧ t.mach.cause = s.mach.cause) ∨
    (t.mach.status = .faulted ∧ t.mach.cause ≠ .none ∧ t.mach.pc = s.mach.pc ∧ t.mach.mem = s.mach.mem)

/-- The steps from `s` to `t` and from `s'` to `t'` are one step of the same machine: it ends in the same state, its
input channel is left with the same words, and it has pushed the same words onto its output channel. -/
structure SameEffect (s t s' t' : State) : Prop where
  mach : t.mach = t'.mach
  input : t.inChannel = t'.inChannel
  output : s.mach.inch ≠ s.mach.outch → ∃ pushed,
    (∀ c, s.outChannel = some c → t.outChannel = some { q := c.q ++ pushed }) ∧
    ∀ c, s'.outChannel = some c → t'.outChannel = some { q := c.q ++ pushed }

/-- Two outcomes, `o` from `s` and `o'` from `s'`, that have the same effect, or stop for the same reason. -/
def sameForMachine (s s' : State) (o o' : Host.Outcome State Fault Refusal) : Prop :=
  match o, o' with
  | .next t, .next t' => SameEffect s t s' t'
  | .fault f, .fault f' => f = f'
  | .refused r, .refused r' => r = r'
  | _, _ => False

/-- Two states that agree in everything but which machine is in focus. -/
structure SameSystem (s t : State) : Prop where
  cfg : s.cfg = t.cfg
  anyMachine : s.anyMachine = t.anyMachine
  machines : s.machines = t.machines
  chans : s.chans = t.chans
  schedule : s.schedule = t.schedule
  replies : s.replies = t.replies

/-- XLEN is wide enough for the results `0` and `1` of LT and EQ to be words (40_alu.md R74, R75; DEDUCED, log 3). -/
def XLenOk (x : XLen) : Prop := isWord x 0 = true ∧ isWord x 1 = true

/-- A machine inside the wait of IN: running, the word at `pc` decodes to an IN, and its destination resolves, since
every fault of IN comes before the wait (10_state.md R25 h, 41_io.md R79). -/
structure Waiting (m : Mach) : Prop where
  running : m.status = .running
  atInput : ∃ m0 d, decode (m.cell m.pc) = .ok (.inp m0) ∧ m.target 0 m0 = some d

/-- The invariants of one machine in a system with parameters `cfg` and `nchans` channels
(10_state.md R25 a, c, d, e, h; R19 and 44_channel.md R91 for the ports). -/
structure MachInv (cfg : Config) (nchans : Nat) (m : Mach) : Prop where
  memWf : m.mem.wf = true
  memInExtent : ∀ a, m.ext ≤ a → m.cell a = 0
  memWords : ∀ a, isWord cfg.xlen (m.cell a) = true
  rbWord : isWord cfg.xlen m.rb = true
  outWord : m.outv = true → isWord cfg.xlen m.out = true
  causeIff : m.cause = .none ↔ m.status ≠ .faulted
  waiting : m.blk = true → Waiting m
  inBound : m.inch < nchans
  outBound : m.outch < nchans
  wired : { inch := m.inch, outch := m.outch } ∈ cfg.wiring.ports

/-- The invariant of the system (10_state.md R25): before the first spawn the place of the machines is empty, the
parameters make sense (00_scope.md R7), every machine meets its own, no two machines share an end of a channel
(44_channel.md R91), every channel is one of the wiring and holds words. -/
structure Inv (s : State) : Prop where
  noneYet : s.anyMachine = false → s.mach = Mach.empty 0 0 ∧ s.before = [] ∧ s.after = []
  xlenOk : XLenOk s.cfg.xlen
  wiringOk : wiringOk s.cfg.wiring = true
  machInv : ∀ (k : Nat) m, s.machines[k]? = some m → MachInv s.cfg s.chans.length m
  ownEnds : ∀ (i j : Nat) mi mj, i ≠ j → s.machines[i]? = some mi → s.machines[j]? = some mj →
    mi.inch ≠ mj.inch ∧ mi.outch ≠ mj.outch
  chansWired : s.chans.length ≤ s.cfg.wiring.ends.length
  chanWords : ∀ (ch : Nat) c, s.chans[ch]? = some c → ∀ v ∈ c.q, isWord s.cfg.xlen v = true

/-- An execution without end (60_exceptions.md R119): at each moment one agent moves, or nothing happens. Any agent with
an enabled step may be the one: nothing fixes the order. -/
structure Execution (σ : Nat → State) (act : Nat → Option Event) : Prop where
  moves : ∀ n e, act n = some e → eventStep e (σ n) = .next (σ (n + 1))
  idles : ∀ n, act n = none → σ (n + 1) = σ n

/-- Weak fairness for machines (60_exceptions.md R119, D26): a machine that stays enabled is eventually stepped. The
host is promised nothing and promises nothing. -/
def WeaklyFair (σ : Nat → State) (act : Nat → Option Event) : Prop :=
  ∀ k n : Nat, (∀ m, n ≤ m → (σ m).machineEnabled k = true) → ∃ m, n ≤ m ∧ act m = some (.run k)

/-- A run of the model without end. -/
def EndlessRun (σ : Nat → State) : Prop := ∀ n, step (σ n) = .next (σ (n + 1))

/-- A finite run of events, in their order. -/
def runEvents : List Event → State → Host.Outcome State Fault Refusal
  | [], s => .next s
  | e :: es, s =>
    match eventStep e s with
    | .next t => runEvents es t
    | .fault f => .fault f
    | .refused r => .refused r

/-- A finite run of steps. -/
def runSteps : Nat → State → Host.Outcome State Fault Refusal
  | 0, s => .next s
  | n + 1, s =>
    match step s with
    | .next t => runSteps n t
    | .fault f => .fault f
    | .refused r => .refused r

/-- The run of a machine has ended (60_exceptions.md R122). -/
def Mach.stopped (m : Mach) : Bool := decide (m.status ≠ .running)

/-- The run of the system has ended well (60_exceptions.md R122): the `NMACH` machines of the wiring have been spawned,
and every one is Halted. -/
def State.endedWell (s : State) : Bool :=
  decide (s.machines.length = s.cfg.wiring.ports.length) && s.machines.all fun m => decide (m.status = .halted)

/-- A deadlock: some machine runs and no machine has an enabled step (60_exceptions.md R122). -/
def State.deadlocked (s : State) : Bool :=
  (s.machines.any fun m => decide (m.status = .running)) &&
    (List.range s.machines.length).all fun k => !s.machineEnabled k

/-- What a later state of a machine keeps of an earlier one (10_state.md R12, R25 b, f, g; R17, R19): the extent never
shrinks, `outv` and `fh` never go back, a stopped machine changes in `fh` only, the ports stay bound. -/
structure Later (m m' : Mach) : Prop where
  ext : m.ext ≤ m'.ext
  outv : m.outv = true → m'.outv = true
  fh : m.fh = true → m'.fh = true
  stopped : m.status ≠ .running → m' = { m with fh := m'.fh }
  ports : m'.inch = m.inch ∧ m'.outch = m.outch

/-- What one step may do to a channel (44_channel.md R95): nothing, one word appended at the tail, or the head
removed. -/
def FifoStep (c c' : Channel) : Prop :=
  c'.q = c.q ∨ (∃ v, c'.q = c.q ++ [v]) ∨ (∃ v, c.q = v :: c'.q)

/-- An operation on a channel, for the FIFO property (44_channel.md R95). -/
inductive ChannelOp where
  | push (v : Int)
  | pop
  deriving DecidableEq, Repr

/-- The words that a run of operations pushes, in order. -/
def pushedBy : List ChannelOp → List Int
  | [] => []
  | .push v :: ops => v :: pushedBy ops
  | .pop :: ops => pushedBy ops

/-- A run of operations on a channel: the words the successful pops return, in order, and the channel after it. A pop of
an empty channel takes no effect (44_channel.md R93, R94). -/
def runChannel : List ChannelOp → Channel → List Int × Channel
  | [], c => ([], c)
  | .push v :: ops, c => runChannel ops (c.push v)
  | .pop :: ops, c =>
    match c.pop with
    | none => runChannel ops c
    | some (v, c') => let (vs, c'') := runChannel ops c'; (v :: vs, c'')

end Sys2Proof.Machine
end

