-- ==== Sys2Proof/Certificates/Slice0/Obligations.lean ====
section
/-! DEFINITION. The statements for the provers, from the numbered rules of spec/. Where a rule marks a clause as this
spec's own decision D<n>, the docstring names it. -/

open Sys2Proof Sys2Proof.Machine

/-! ### Reset -/

/-- What reset leaves (10_state.md section 5, 70_reset_and_hazards.md section 1). The value of `rb` is decision D12
(general knowledge), `outv` D13, `fh` D15, `blk` D16, `cause` D14; the one machine with an empty image on channels 0
and 1 is the model's choice (log 6); it is what the host makes in a system that holds nothing yet, by creating the two
channels and spawning (70_reset_and_hazards.md R130, 60_exceptions.md R142; log 6). -/
def Obligations.ResetStateAsSpecified : Prop :=
  State.reset.mach.pc = 0 ∧ State.reset.mach.ext = 0 ∧ (∀ a, State.reset.mach.cell a = 0) ∧
  State.reset.mach.rb = 0 ∧ State.reset.mach.outv = false ∧ State.reset.mach.lastOutput = none ∧
  State.reset.mach.status = .running ∧ State.reset.mach.fh = false ∧ State.reset.mach.blk = false ∧
  State.reset.mach.cause = .none ∧ State.reset.machines.length = 1 ∧ (∀ c ∈ State.reset.chans, c.q = []) ∧
  (State.boot Config.ofSpec).machines = [] ∧ (State.boot Config.ofSpec).chans = [] ∧
  runEvents [.host .createChannel, .host .createChannel, .host (.spawn [] 0 1)] (State.boot Config.ofSpec) =
    .next { State.reset with replies := [.channel 0, .channel 1, .handle 0] }

/-- The invariant of 10_state.md R25 holds at reset, and in every system that holds nothing yet, whatever its wiring,
where that is one (70_reset_and_hazards.md R130; log 6). -/
def Obligations.ResetMeetsTheInvariant : Prop :=
  Inv State.reset ∧ ∀ cfg : Config, XLenOk cfg.xlen → wiringOk cfg.wiring = true → Inv (State.boot cfg)

/-! ### Encoding -/

/-- Words written out from the encodings of 30_encoding.md (sections 1, 3 and 8): the digit fields `...CBAOO`. -/
def Obligations.DecodeSampleWords : Prop :=
  decode 1 = .ok (.add .position .position .position) ∧
  decode 21101 = .ok (.add .immediate .immediate .relative) ∧
  decode 1002 = .ok (.mul .position .immediate .position) ∧
  decode 203 = .ok (.inp .relative) ∧
  decode 104 = .ok (.out .immediate) ∧
  decode 2105 = .ok (.jt .immediate .relative) ∧
  decode 1006 = .ok (.jf .position .immediate) ∧
  decode 21107 = .ok (.lt .immediate .immediate .relative) ∧
  decode 22208 = .ok (.eq .relative .relative .relative) ∧
  decode 209 = .ok (.arb .relative) ∧
  decode 1199 = .ok .hlt ∧
  decode 10001 = .error .immediateDestination ∧
  decode 301 = .error .badModeDigit ∧
  decode 0 = .error .unknownOpcode ∧
  decode (-1) = .error .negativeWord

/-- Decoding the word of a well-formed instruction gives the instruction back, whatever its modes
(30_encoding.md R50, R51, R54, R55, R68). -/
def Obligations.DecodeEncodeRoundTrip : Prop :=
  ∀ i : Instr, i.wf = true → decode (encode i) = .ok i

/-- The decoder's checks, in their order, and what it gives when all pass (30_encoding.md R49 to R52, R54, R56, R61,
R62; the order is decision D8, the negative word D4, all three digits D6, the Immediate destination D7). -/
def Obligations.DecoderChecksInOrder : Prop :=
  ∀ w : Int,
    (w < 0 → decode w = .error .negativeWord) ∧
    (0 ≤ w → (2 < digit w.toNat 2 ∨ 2 < digit w.toNat 3 ∨ 2 < digit w.toNat 4) →
      decode w = .error .badModeDigit) ∧
    (0 ≤ w → digit w.toNat 2 ≤ 2 → digit w.toNat 3 ≤ 2 → digit w.toNat 4 ≤ 2 →
      (w.toNat % 100 ∉ [1, 2, 3, 4, 5, 6, 7, 8, 9, 99] → decode w = .error .unknownOpcode) ∧
      (w.toNat % 100 ∈ [1, 2, 7, 8] → digit w.toNat 4 = 1 → decode w = .error .immediateDestination) ∧
      (w.toNat % 100 = 3 → digit w.toNat 2 = 1 → decode w = .error .immediateDestination) ∧
      (w.toNat % 100 ∈ [1, 2, 3, 4, 5, 6, 7, 8, 9, 99] →
        ¬(w.toNat % 100 ∈ [1, 2, 7, 8] ∧ digit w.toNat 4 = 1) →
        ¬(w.toNat % 100 = 3 ∧ digit w.toNat 2 = 1) →
        ∃ i, decode w = .ok i ∧ i.wf = true ∧ i.opcode = w.toNat % 100 ∧
          ∀ j m, i.modes[j]? = some m → m.toDigit = digit w.toNat (j + 2)))

/-- Digits at position 5 and above are not examined (30_encoding.md R53, decision D5). -/
def Obligations.DecodeIgnoresHighDigits : Prop :=
  ∀ w : Int, 0 ≤ w → decode w = decode (w % 100000)

/-! ### Memory and operands -/

/-- `MemRead(a, 1)` grows `ext` to `a + 1`, returns the cell, which is `0` beyond the old extent where memory is `0`
there, and changes nothing else (20_memory.md R33). -/
def Obligations.MemReadGrowsAndReturns : Prop :=
  ∀ (m : Mach) (a : Nat),
    m.memRead a = (m.cell a, { m with ext := max m.ext (a + 1) }) ∧
    ((∀ b, m.ext ≤ b → m.cell b = 0) → m.ext ≤ a → (m.memRead a).1 = 0)

/-- `MemWrite(a, 1, v)` in canonical memory: cell `a` holds `v`, every other cell is unchanged, the cells between the
old extent and `a` hold `0` where the cells beyond the extent did, `ext` grows, nothing else changes (20_memory.md
R34). -/
def Obligations.MemWriteStoresOneCell : Prop :=
  ∀ (m : Mach) (a : Nat) (v : Int), m.mem.wf = true →
    (m.memWrite a v).cell a = v ∧
    (∀ b, b ≠ a → (m.memWrite a v).cell b = m.cell b) ∧
    ((∀ b, m.ext ≤ b → m.cell b = 0) → ∀ b, m.ext ≤ b → b < a → (m.memWrite a v).cell b = 0) ∧
    m.memWrite a v = { m with mem := (m.memWrite a v).mem, ext := max m.ext (a + 1) }

/-- `load(i)` by mode (30_encoding.md section 5, R58, R59): the literal cell `pc + 1 + i` is read first; a negative
address faults before any access at it (decision D3); the address of a Relative operand is the exact sum (D2). -/
def Obligations.LoadFollowsTheMode : Prop :=
  ∀ (m : Mach) (i : Nat),
    m.load i .immediate = .ok (m.cell (m.pc + 1 + i)) (m.growAll [m.pc + 1 + i]) ∧
    (m.cell (m.pc + 1 + i) < 0 →
      m.load i .position = .raised .negativeAddress (m.growAll [m.pc + 1 + i])) ∧
    (0 ≤ m.cell (m.pc + 1 + i) →
      m.load i .position = .ok (m.cell (m.cell (m.pc + 1 + i)).toNat)
        (m.growAll [m.pc + 1 + i, (m.cell (m.pc + 1 + i)).toNat])) ∧
    (m.rb + m.cell (m.pc + 1 + i) < 0 →
      m.load i .relative = .raised .negativeAddress (m.growAll [m.pc + 1 + i])) ∧
    (0 ≤ m.rb + m.cell (m.pc + 1 + i) →
      m.load i .relative = .ok (m.cell (m.rb + m.cell (m.pc + 1 + i)).toNat)
        (m.growAll [m.pc + 1 + i, (m.rb + m.cell (m.pc + 1 + i)).toNat]))

/-- `dest(i)` by mode (30_encoding.md section 5, R60): it reads the literal cell only; a negative address faults
(decision D3). -/
def Obligations.DestFollowsTheMode : Prop :=
  ∀ (m : Mach) (i : Nat),
    (m.cell (m.pc + 1 + i) < 0 →
      m.dest i .position = .raised .negativeAddress (m.growAll [m.pc + 1 + i])) ∧
    (0 ≤ m.cell (m.pc + 1 + i) →
      m.dest i .position = .ok (m.cell (m.pc + 1 + i)).toNat (m.growAll [m.pc + 1 + i])) ∧
    (m.rb + m.cell (m.pc + 1 + i) < 0 →
      m.dest i .relative = .raised .negativeAddress (m.growAll [m.pc + 1 + i])) ∧
    (0 ≤ m.rb + m.cell (m.pc + 1 + i) →
      m.dest i .relative = .ok (m.rb + m.cell (m.pc + 1 + i)).toNat (m.growAll [m.pc + 1 + i]))

/-- The word range (00_scope.md R2) and the range check: the exact result inside `WMIN .. WMAX`, an OverflowFault
outside, never a fault when `XLEN = infinity` (40_alu.md R70, decision D1). -/
def Obligations.RangeCheckIsExact : Prop :=
  (∀ n : Nat, 1 ≤ n → wmin n = -(2 : Int) ^ (n - 1) ∧ wmax n = (2 : Int) ^ (n - 1) - 1) ∧
  ∀ (n : Nat) (v : Int),
    (wmin n ≤ v → v ≤ wmax n → chk (.bits n) v = .ok v) ∧
    (v < wmin n ∨ wmax n < v → chk (.bits n) v = .error .overflow) ∧
    chk .infinite v = .ok v

/-! ### The instruction cycle -/

/-- The step of a machine runs the instruction that the word at `pc` decodes to, after the growth of the fetch
(30_encoding.md R64), whatever events are to come. With no event to come, step is that of the machine whose turn it is,
the one in focus where that is enabled; then the turn passes to the next machine, which changes nothing but the focus
(the turns are the model's choice, log 4). The step of a machine named by an event is ScheduleChoosesTheMachine. -/
def Obligations.StepRunsTheDecodedInstruction : Prop :=
  (∀ (s : State) (i : Instr), AboutToExecute s → decode (s.mach.cell s.mach.pc) = .ok i →
    machineStep s = exec i (s.withMach { s.mach with ext := max s.mach.ext (s.mach.pc + 1) }) ∧
    (s.schedule = [] →
      step s = endTurn (exec i (s.withMach { s.mach with ext := max s.mach.ext (s.mach.pc + 1) })))) ∧
  (∀ (s : State) (k : Nat), s.schedule = [] → s.turn = some k →
    ∃ f, f.self = k ∧ f.enabled = true ∧ SameSystem s f ∧ step s = endTurn (machineStep f)) ∧
  (∀ s : State, s.enabled = true → s.turn = some s.self) ∧
  ∀ s : State, SameSystem s s.passTurn ∧
    (s.anyMachine = true → s.passTurn.self = (s.self + 1) % s.machines.length)

/-- A word the decoder rejects raises its fault: DecodeFault for a negative word or an unknown opcode, AddressingFault
for a bad mode digit or an Immediate destination; only `ext` has grown, from the fetch (60_exceptions.md R102, R103,
R105; decisions D4, D6, D7, D11, D14), whatever events are to come. With no event to come, the turn passes as well,
which moves the focus (the model's choice, log 4). -/
def Obligations.RejectedWordFaults : Prop :=
  ∀ (s : State) (e : DecodeError), AboutToExecute s → decode (s.mach.cell s.mach.pc) = .error e →
    machineStep s =
      s.faultsAfter (if e = .negativeWord ∨ e = .unknownOpcode then .decode else .addressing) [s.mach.pc] ∧
    (s.schedule = [] → step s = endTurn
      (s.faultsAfter (if e = .negativeWord ∨ e = .unknownOpcode then .decode else .addressing) [s.mach.pc]))

/-- A set force-halt flag seen at a boundary halts the machine before the fetch and its step changes nothing else
(60_exceptions.md R113, decision D15), whatever events are to come; with no event to come, the turn passes as well,
which moves the focus (the model's choice, log 4). And the flag is seen: in every weakly fair execution a running
machine at a boundary with the flag set halts (R119, decision D26). -/
def Obligations.ForceHaltAtTheBoundary : Prop :=
  (∀ s : State, s.anyMachine = true → s.mach.status = .running → s.mach.blk = false → s.mach.fh = true →
    machineStep s = .next (s.withMach { s.mach with status := .halted }) ∧
    (s.schedule = [] → step s = endTurn (.next (s.withMach { s.mach with status := .halted })))) ∧
  ∀ (σ : Nat → State) (act : Nat → Option Event) (k n : Nat) (m : Mach), Execution σ act → WeaklyFair σ act →
    (σ n).machines[k]? = some m → m.status = .running → m.blk = false → m.fh = true →
    ∃ n', n ≤ n' ∧ (σ n').machines[k]? = some { m with status := .halted }

/-- A machine inside the wait of IN has no step while its channel is empty, whatever its force-halt flag, and completes
the IN once a word is there; a force-halt request then takes effect at the next boundary (60_exceptions.md R114,
41_io.md R78, R79; decisions D15, D16). -/
def Obligations.WaitingInputIgnoresForceHalt : Prop :=
  ∀ (s : State) (m0 : Mode) (d : Nat) (c : Channel),
    s.anyMachine = true → s.mach.status = .running → s.mach.blk = true →
    decode (s.mach.cell s.mach.pc) = .ok (.inp m0) → s.mach.target 0 m0 = some d → s.inChannel = some c →
    (c.q = [] → machineStep s = .fault .inputEmpty) ∧
    (∀ v rest, c.q = v :: rest →
      ∃ t, machineStep s = .next t ∧ t.mach.pc = s.mach.pc + 2 ∧ t.mach.blk = false ∧
        t.mach.mem = s.mach.mem.write d v ∧ t.inChannel = some { c with q := rest } ∧
        (s.mach.fh = true → machineStep t = .next (t.withMach { t.mach with status := .halted })))

/-- A machine that is Halted or Faulted has no step (30_encoding.md R64, 60_exceptions.md R110), nor has a machine
before the first spawn, there being none (70_reset_and_hazards.md R130); and where no event is to come and no machine
is enabled, the system has none: it stops as the machine in focus does, if there is one (log 5). -/
def Obligations.StoppedMachineHasNoStep : Prop :=
  ∀ s : State,
    (s.anyMachine = true → s.mach.status = .halted → machineStep s = .fault .machineHalted) ∧
    (s.anyMachine = true → s.mach.status = .faulted → machineStep s = .fault .machineFaulted) ∧
    (s.anyMachine = false →
      machineStep s = .fault .noMachine ∧ ∀ k, eventStep (.run k) s = .refused .noSuchMachine) ∧
    (s.schedule = [] → (∀ k, s.machineEnabled k = false) → step s = machineStep s ∧ ∀ t, step s ≠ .next t)

/-- In a state that meets the invariant, the machine in focus has a step exactly when it runs and does not hold in IN
on an empty channel (60_exceptions.md R119, 41_io.md R78; decision D26). A step of the system performs its next event,
the head of the schedule or else a step of the machine whose turn it is, and at most the focus moves on (log 4). So a
machine that stays enabled is stepped: every run of the model without end is weakly fair (R119; the turns are the
model's choice, log 4). -/
def Obligations.MachineStepsExactlyWhenEnabled : Prop :=
  (∀ s : State, Inv s → ((∃ t, machineStep s = .next t) ↔ s.enabled = true)) ∧
  (∀ s t : State, step s = .next t →
    ∃ e u, s.nextEvent = some e ∧ eventStep e { s with schedule := s.schedule.tail } = .next u ∧ SameSystem u t) ∧
  (∀ (s u : State) (e : Event), s.nextEvent = some e →
    eventStep e { s with schedule := s.schedule.tail } = .next u → ∃ t, step s = .next t ∧ SameSystem u t) ∧
  ∀ σ : Nat → State, EndlessRun σ → WeaklyFair σ fun n => (σ n).nextEvent

/-- A store is seen by the very next fetch (20_memory.md R43), whichever instruction stores: an ADD, MUL, LT, EQ or IN
that stores into the first cell of the next instruction changes what the next step executes. -/
def Obligations.StoreIsSeenByTheNextFetch : Prop :=
  ∀ (s : State) (j : Instr), s.anyMachine = true → s.mach.mem.wf = true → s.mach.status = .running →
    s.mach.fh = false →
    (∀ (i : Instr) (m0 m1 m2 : Mode) (r : Int), s.mach.blk = false → decode (s.mach.cell s.mach.pc) = .ok i →
      (i = .add m0 m1 m2 ∧ r = s.mach.value 0 m0 + s.mach.value 1 m1 ∧ isWord s.cfg.xlen r = true ∨
        i = .mul m0 m1 m2 ∧ r = s.mach.value 0 m0 * s.mach.value 1 m1 ∧ isWord s.cfg.xlen r = true ∨
        i = .lt m0 m1 m2 ∧ r = (if s.mach.value 0 m0 < s.mach.value 1 m1 then 1 else 0) ∨
        i = .eq m0 m1 m2 ∧ r = (if s.mach.value 0 m0 = s.mach.value 1 m1 then 1 else 0)) →
      s.mach.readable 0 m0 = true → s.mach.readable 1 m1 = true → s.mach.target 2 m2 = some (s.mach.pc + 4) →
      decode r = .ok j →
      ∃ t, machineStep s = .next t ∧ t.mach.pc = s.mach.pc + 4 ∧ machineStep t = exec j t) ∧
    (∀ (m0 : Mode) (c : Channel) (v : Int) (rest : List Int), decode (s.mach.cell s.mach.pc) = .ok (.inp m0) →
      s.mach.target 0 m0 = some (s.mach.pc + 2) → s.inChannel = some c → c.q = v :: rest → decode v = .ok j →
      ∃ t, machineStep s = .next t ∧ t.mach.pc = s.mach.pc + 2 ∧ machineStep t = exec j t)

/-! ### The instructions: results -/

/-- ADD (40_alu.md R72): its word is `1 + 100*m0 + 1000*m1 + 10000*m2`; the exact sum is stored and `pc` advances by
4; a sum that is no word faults and writes nothing (decision D1, log 2); the operand faults come first, in the order
of 60_exceptions.md R107 (decisions D3 and D8, log 14). -/
def Obligations.AddStoresTheSum : Prop :=
  ∀ (s : State) (m0 m1 m2 : Mode), m2.isDestination = true →
    encode (.add m0 m1 m2) = (1 + 100 * m0.toDigit + 1000 * m1.toDigit + 10000 * m2.toDigit : Nat) ∧
    F3Faults (.add m0 m1 m2) m0 m1 m2 s ∧
    ∀ d, s.mach.readable 0 m0 = true → s.mach.readable 1 m1 = true → s.mach.target 2 m2 = some d →
      (isWord s.cfg.xlen (s.mach.value 0 m0 + s.mach.value 1 m1) = true →
        exec (.add m0 m1 m2) s = s.f3Stores m0 m1 d (s.mach.value 0 m0 + s.mach.value 1 m1)) ∧
      (isWord s.cfg.xlen (s.mach.value 0 m0 + s.mach.value 1 m1) = false →
        exec (.add m0 m1 m2) s = s.faultsAfter .overflow (s.mach.f3Cells m0 m1))

/-- MUL (40_alu.md R73): its word is `2 + 100*m0 + 1000*m1 + 10000*m2`; the exact product is stored and `pc` advances
by 4; a product that is no word faults and writes nothing (decision D1, log 2); the operand faults come first, in the
order of 60_exceptions.md R107 (decisions D3 and D8, log 14). -/
def Obligations.MulStoresTheProduct : Prop :=
  ∀ (s : State) (m0 m1 m2 : Mode), m2.isDestination = true →
    encode (.mul m0 m1 m2) = (2 + 100 * m0.toDigit + 1000 * m1.toDigit + 10000 * m2.toDigit : Nat) ∧
    F3Faults (.mul m0 m1 m2) m0 m1 m2 s ∧
    ∀ d, s.mach.readable 0 m0 = true → s.mach.readable 1 m1 = true → s.mach.target 2 m2 = some d →
      (isWord s.cfg.xlen (s.mach.value 0 m0 * s.mach.value 1 m1) = true →
        exec (.mul m0 m1 m2) s = s.f3Stores m0 m1 d (s.mach.value 0 m0 * s.mach.value 1 m1)) ∧
      (isWord s.cfg.xlen (s.mach.value 0 m0 * s.mach.value 1 m1) = false →
        exec (.mul m0 m1 m2) s = s.faultsAfter .overflow (s.mach.f3Cells m0 m1))

/-- LT (40_alu.md R74): its word is `7 + 100*m0 + 1000*m1 + 10000*m2`; `1` is stored when the first operand is below
the second as signed words, else `0`; no OverflowFault; the operand faults come first, in the order of
60_exceptions.md R107 (decisions D3 and D8, log 14). -/
def Obligations.LtStoresTheComparison : Prop :=
  ∀ (s : State) (m0 m1 m2 : Mode), m2.isDestination = true →
    encode (.lt m0 m1 m2) = (7 + 100 * m0.toDigit + 1000 * m1.toDigit + 10000 * m2.toDigit : Nat) ∧
    F3Faults (.lt m0 m1 m2) m0 m1 m2 s ∧
    ∀ d, s.mach.readable 0 m0 = true → s.mach.readable 1 m1 = true → s.mach.target 2 m2 = some d →
      (s.mach.value 0 m0 < s.mach.value 1 m1 → exec (.lt m0 m1 m2) s = s.f3Stores m0 m1 d 1) ∧
      (s.mach.value 1 m1 ≤ s.mach.value 0 m0 → exec (.lt m0 m1 m2) s = s.f3Stores m0 m1 d 0)

/-- EQ (40_alu.md R75): its word is `8 + 100*m0 + 1000*m1 + 10000*m2`; `1` is stored when the operands are the same
word, else `0`; no OverflowFault; the operand faults come first, in the order of 60_exceptions.md R107 (decisions D3
and D8, log 14). -/
def Obligations.EqStoresTheComparison : Prop :=
  ∀ (s : State) (m0 m1 m2 : Mode), m2.isDestination = true →
    encode (.eq m0 m1 m2) = (8 + 100 * m0.toDigit + 1000 * m1.toDigit + 10000 * m2.toDigit : Nat) ∧
    F3Faults (.eq m0 m1 m2) m0 m1 m2 s ∧
    ∀ d, s.mach.readable 0 m0 = true → s.mach.readable 1 m1 = true → s.mach.target 2 m2 = some d →
      (s.mach.value 0 m0 = s.mach.value 1 m1 → exec (.eq m0 m1 m2) s = s.f3Stores m0 m1 d 1) ∧
      (s.mach.value 0 m0 ≠ s.mach.value 1 m1 → exec (.eq m0 m1 m2) s = s.f3Stores m0 m1 d 0)

/-- IN (41_io.md R79, cases a and d): its word is `3 + 100*m0`; with a word in its channel the head is popped and
stored, `blk` is clear, `pc` advances by 2. -/
def Obligations.InPopsAndStores : Prop :=
  ∀ (s : State) (m0 : Mode) (d : Nat) (c : Channel) (v : Int) (rest : List Int),
    s.mach.target 0 m0 = some d → s.inChannel = some c → c.q = v :: rest →
    encode (.inp m0) = (3 + 100 * m0.toDigit : Nat) ∧
    exec (.inp m0) s = .next ((s.setChannel s.mach.inch { c with q := rest }).withMach { s.mach with
      mem := s.mach.mem.write d v
      ext := s.mach.extAfter [s.mach.litCell 0, d]
      blk := false
      pc := s.mach.pc + 2 })

/-- IN on an empty channel (41_io.md R79, cases b and c; decision D16): it enters the wait by setting `blk`, and
inside the wait there is no step. -/
def Obligations.InWaitsOnAnEmptyChannel : Prop :=
  ∀ (s : State) (m0 : Mode) (d : Nat) (c : Channel),
    s.mach.target 0 m0 = some d → s.inChannel = some c → c.q = [] →
    (s.mach.blk = false →
      exec (.inp m0) s = .next (s.withMach { s.mach with
        blk := true
        ext := s.mach.extAfter [s.mach.litCell 0] })) ∧
    (s.mach.blk = true → exec (.inp m0) s = .fault .inputEmpty)

/-- A negative destination of IN faults before the channel is looked at: nothing is popped and it never waits
(41_io.md R79, decisions D3, D7, D16). -/
def Obligations.InFaultsBeforeTheChannel : Prop :=
  ∀ (s : State) (m0 : Mode), m0.isDestination = true → s.mach.target 0 m0 = none →
    exec (.inp m0) s = s.faultsAfter .negativeAddress [s.mach.litCell 0]

/-- OUT (41_io.md R80): its word is `4 + 100*m0`; the operand is pushed at the tail of the output channel and
recorded, `pc` advances by 2, all in one step, whatever the channel holds; an unreadable operand faults (decision D3,
log 14), and then nothing is pushed. -/
def Obligations.OutPushesAndRecords : Prop :=
  ∀ (s : State) (m0 : Mode),
    encode (.out m0) = (4 + 100 * m0.toDigit : Nat) ∧
    (s.mach.readable 0 m0 = false →
      exec (.out m0) s = s.faultsAfter .negativeAddress [s.mach.litCell 0]) ∧
    (∀ c, s.mach.readable 0 m0 = true → s.outChannel = some c →
      exec (.out m0) s =
        .next ((s.setChannel s.mach.outch { c with q := c.q ++ [s.mach.value 0 m0] }).withMach { s.mach with
          out := s.mach.value 0 m0
          outv := true
          ext := s.mach.extAfter (s.mach.readCells 0 m0)
          pc := s.mach.pc + 2 }))

/-- JT (42_control.md R82, R84): its word is `5 + 100*m0 + 1000*m1`; taken when the condition is not zero; operand 1
is evaluated only then (decision D9), and a negative target faults in the jump (D10). -/
def Obligations.JtJumpsWhenNotZero : Prop :=
  ∀ (s : State) (m0 m1 : Mode),
    encode (.jt m0 m1) = (5 + 100 * m0.toDigit + 1000 * m1.toDigit : Nat) ∧
    (s.mach.readable 0 m0 = false →
      exec (.jt m0 m1) s = s.faultsAfter .negativeAddress [s.mach.litCell 0]) ∧
    (s.mach.readable 0 m0 = true → s.mach.value 0 m0 ≠ 0 → JumpTaken (.jt m0 m1) m0 m1 s) ∧
    (s.mach.readable 0 m0 = true → s.mach.value 0 m0 = 0 → exec (.jt m0 m1) s = s.fallsThrough m0)

/-- JF (42_control.md R83, R84): its word is `6 + 100*m0 + 1000*m1`; taken when the condition is zero; operand 1 is
evaluated only then (decision D9), and a negative target faults in the jump (D10). -/
def Obligations.JfJumpsWhenZero : Prop :=
  ∀ (s : State) (m0 m1 : Mode),
    encode (.jf m0 m1) = (6 + 100 * m0.toDigit + 1000 * m1.toDigit : Nat) ∧
    (s.mach.readable 0 m0 = false →
      exec (.jf m0 m1) s = s.faultsAfter .negativeAddress [s.mach.litCell 0]) ∧
    (s.mach.readable 0 m0 = true → s.mach.value 0 m0 = 0 → JumpTaken (.jf m0 m1) m0 m1 s) ∧
    (s.mach.readable 0 m0 = true → s.mach.value 0 m0 ≠ 0 → exec (.jf m0 m1) s = s.fallsThrough m0)

/-- HLT (42_control.md R85): its word is `99`; the status becomes Halted and nothing else changes, `pc` included
(decision D11). -/
def Obligations.HltHalts : Prop :=
  ∀ s : State, encode .hlt = 99 ∧ exec .hlt s = .next (s.withMach { s.mach with status := .halted })

/-- ARB (43_relbase.md R87): its word is `9 + 100*m0`; the operand, read with the old base, is added to the base, `pc`
advances by 2; a sum that is no word faults and the base keeps its value (decision D1, log 2); an unreadable operand
faults (decision D3, log 14). -/
def Obligations.ArbAddsToTheBase : Prop :=
  ∀ (s : State) (m0 : Mode),
    encode (.arb m0) = (9 + 100 * m0.toDigit : Nat) ∧
    (s.mach.readable 0 m0 = false →
      exec (.arb m0) s = s.faultsAfter .negativeAddress [s.mach.litCell 0]) ∧
    (s.mach.readable 0 m0 = true → isWord s.cfg.xlen (s.mach.rb + s.mach.value 0 m0) = true →
      exec (.arb m0) s = .next (s.withMach { s.mach with
        rb := s.mach.rb + s.mach.value 0 m0
        ext := s.mach.extAfter (s.mach.readCells 0 m0)
        pc := s.mach.pc + 2 })) ∧
    (s.mach.readable 0 m0 = true → isWord s.cfg.xlen (s.mach.rb + s.mach.value 0 m0) = false →
      exec (.arb m0) s = s.faultsAfter .overflow (s.mach.readCells 0 m0))

/-! ### The instructions: frames -/

/-- The frame of ADD, MUL, LT, EQ (40_alu.md R77): no register but `pc`, no channel and no other machine changes, and
every cell outside the destination reads as before. -/
def Obligations.AluInstructionsFrame : Prop :=
  ∀ (s t : State) (i : Instr) (m0 m1 m2 : Mode),
    i = .add m0 m1 m2 ∨ i = .mul m0 m1 m2 ∨ i = .lt m0 m1 m2 ∨ i = .eq m0 m1 m2 →
    s.mach.mem.wf = true → exec i s = .next t →
    SameSurroundings s t ∧ t.chans = s.chans ∧ StatusKeptOrFaulted s t ∧
    t.mach.rb = s.mach.rb ∧ t.mach.out = s.mach.out ∧ t.mach.outv = s.mach.outv ∧ t.mach.blk = s.mach.blk ∧
    s.mach.ext ≤ t.mach.ext ∧
    ∀ a, (∀ d, s.mach.target 2 m2 = some d → a ≠ d) → t.mach.cell a = s.mach.cell a

/-- The frame of IN (41_io.md R79): no register but `pc` and `blk`, no channel but the input channel, which loses at
most its head, and no other machine changes; every cell outside the destination reads as before. -/
def Obligations.InFrame : Prop :=
  ∀ (s t : State) (m0 : Mode), s.mach.mem.wf = true → exec (.inp m0) s = .next t →
    SameSurroundings s t ∧ StatusKeptOrFaulted s t ∧
    t.mach.rb = s.mach.rb ∧ t.mach.out = s.mach.out ∧ t.mach.outv = s.mach.outv ∧
    s.mach.ext ≤ t.mach.ext ∧
    (∀ ch, ch ≠ s.mach.inch → t.chans[ch]? = s.chans[ch]?) ∧
    (∀ c, s.inChannel = some c →
      ∃ c', t.inChannel = some c' ∧ (c'.q = c.q ∨ ∃ v, c.q = v :: c'.q)) ∧
    ∀ a, (∀ d, s.mach.target 0 m0 = some d → a ≠ d) → t.mach.cell a = s.mach.cell a

/-- The frame of OUT (41_io.md R80): memory, `rb`, `blk` and every channel but the output channel are unchanged, and
that one gains at most a word at its tail. -/
def Obligations.OutFrame : Prop :=
  ∀ (s t : State) (m0 : Mode), exec (.out m0) s = .next t →
    SameSurroundings s t ∧ StatusKeptOrFaulted s t ∧
    t.mach.rb = s.mach.rb ∧ t.mach.blk = s.mach.blk ∧ t.mach.mem = s.mach.mem ∧ s.mach.ext ≤ t.mach.ext ∧
    (∀ a, t.mach.cell a = s.mach.cell a) ∧
    (∀ ch, ch ≠ s.mach.outch → t.chans[ch]? = s.chans[ch]?) ∧
    (∀ c, s.outChannel = some c →
      ∃ c', t.outChannel = some c' ∧ (c'.q = c.q ∨ ∃ v, c'.q = c.q ++ [v]))

/-- The frame of JT, JF and HLT (42_control.md R82, R83, R85): they store nothing and change no register but `pc` (a
jump) or the status (HLT, which keeps `pc`), and no channel. -/
def Obligations.ControlInstructionsFrame : Prop :=
  ∀ (s t : State) (i : Instr) (m0 m1 : Mode),
    i = .jt m0 m1 ∨ i = .jf m0 m1 ∨ i = .hlt → exec i s = .next t →
    SameSurroundings s t ∧ t.chans = s.chans ∧
    (StatusKeptOrFaulted s t ∨
      (i = .hlt ∧ t.mach.status = .halted ∧ t.mach.cause = s.mach.cause ∧ t.mach.pc = s.mach.pc)) ∧
    t.mach.rb = s.mach.rb ∧ t.mach.out = s.mach.out ∧ t.mach.outv = s.mach.outv ∧ t.mach.blk = s.mach.blk ∧
    s.mach.ext ≤ t.mach.ext ∧ ∀ a, t.mach.cell a = s.mach.cell a

/-- The frame of ARB (43_relbase.md R87, R88): it stores nothing and changes no register but `rb` and `pc`, and no
channel. -/
def Obligations.ArbFrame : Prop :=
  ∀ (s t : State) (m0 : Mode), exec (.arb m0) s = .next t →
    SameSurroundings s t ∧ t.chans = s.chans ∧ StatusKeptOrFaulted s t ∧
    t.mach.out = s.mach.out ∧ t.mach.outv = s.mach.outv ∧ t.mach.blk = s.mach.blk ∧
    s.mach.ext ≤ t.mach.ext ∧ ∀ a, t.mach.cell a = s.mach.cell a

/-! ### Faults -/

/-- Faults of the instructions are precise (60_exceptions.md R105, R108): when a well-formed instruction faults,
nothing is written but `status`, `cause` and a larger `ext`; the cause is NegativeAddress, or Overflow and then the
instruction is an ADD, a MUL or an ARB (R101; decisions D11, D14). -/
def Obligations.InstructionFaultsArePrecise : Prop :=
  ∀ (i : Instr) (s t : State), i.wf = true → s.mach.status = .running → exec i s = .next t →
    t.mach.status = .faulted →
    t = s.withMach { s.mach with status := .faulted, cause := t.mach.cause, ext := t.mach.ext } ∧
    s.mach.ext ≤ t.mach.ext ∧
    (t.mach.cause = .negativeAddress ∨
      (t.mach.cause = .overflow ∧ (i.opcode = 1 ∨ i.opcode = 2 ∨ i.opcode = 9)))

/-- A step of a machine that ends Faulted, the decoder's faults included, has written nothing but `status`, `cause`
and a larger `ext`, and the cause is one of the four (60_exceptions.md R101, R105, R108). -/
def Obligations.MachineFaultsArePrecise : Prop :=
  ∀ s t : State, machineStep s = .next t → t.mach.status = .faulted →
    t = s.withMach { s.mach with status := .faulted, cause := t.mach.cause, ext := t.mach.ext } ∧
    s.mach.ext ≤ t.mach.ext ∧ t.mach.cause ≠ .none

/-! ### Channels -/

/-- A channel is first in, first out (44_channel.md R95): the words it held and those pushed, in order, are the words
popped followed by the words it holds. -/
def Obligations.ChannelIsFirstInFirstOut : Prop :=
  ∀ (ops : List ChannelOp) (c : Channel),
    c.q ++ pushedBy ops = (runChannel ops c).1 ++ (runChannel ops c).2.q

/-- Every step of the system leaves every channel in place and does one thing at most to it: append one word at the
tail or remove the head; the wiring, and so the channel's ends, stay (44_channel.md R91, R95, R96, R97). -/
def Obligations.StepsKeepChannelsInOrder : Prop :=
  ∀ (s t : State) (ch : Nat) (c : Channel), step s = .next t → s.chans[ch]? = some c →
    t.cfg = s.cfg ∧ ∃ c', t.chans[ch]? = some c' ∧ FifoStep c c'

/-- A machine pops only its input channel and pushes only onto its output channel (44_channel.md R98). -/
def Obligations.MachineTouchesOnlyItsPorts : Prop :=
  ∀ (s t : State) (ch : Nat) (c : Channel), machineStep s = .next t → s.chans[ch]? = some c →
    ∃ c', t.chans[ch]? = some c' ∧
      (ch ≠ s.mach.inch → ∃ pushed, c'.q = c.q ++ pushed) ∧
      (ch ≠ s.mach.outch → ∃ popped, c.q = popped ++ c'.q) ∧
      (ch ≠ s.mach.inch → ch ≠ s.mach.outch → c' = c)

/-! ### Several machines -/

/-- A machine's step changes its own state and channels only: no other machine, no parameter, not even its own `fh`
(10_state.md R24, 60_exceptions.md R115, R116). -/
def Obligations.MachineStepLeavesTheRestAlone : Prop :=
  ∀ s t : State, machineStep s = .next t → SameSurroundings s t

/-- What a machine does depends on its own state, the parameters and its input channel, on nothing else of the system
(20_memory.md R45, 60_exceptions.md R116): two systems that agree in these, and have an output channel for it or not
alike, take the machine to the same state, leave its input channel alike and push the same word or none, or stop it
alike. -/
def Obligations.MachineSeesOnlyItsInput : Prop :=
  ∀ s s' : State, s.anyMachine = s'.anyMachine → s.cfg = s'.cfg → s.mach = s'.mach → s.inChannel = s'.inChannel →
    s.outChannel.isSome = s'.outChannel.isSome → sameForMachine s s' (machineStep s) (machineStep s')

/-- Two machines that are not wired to each other commute (60_exceptions.md R119): when both have a step, taking the
two in either order is possible and leads to the same system. -/
def Obligations.UnconnectedMachinesCommute : Prop :=
  ∀ (s s1 s2 : State) (i j : Nat) (mi mj : Mach), Inv s → i ≠ j →
    s.machines[i]? = some mi → s.machines[j]? = some mj → mi.outch ≠ mj.inch → mj.outch ≠ mi.inch →
    eventStep (.run i) s = .next s1 → eventStep (.run j) s = .next s2 →
    ∃ t1 t2, eventStep (.run j) s1 = .next t1 ∧ eventStep (.run i) s2 = .next t2 ∧ SameSystem t1 t2

/-- A step of the schedule runs the machine it names, in a system that differs only in which machine is in focus; an
event that names no machine is refused; and every finite run of events, in whatever order, is the run of the schedule
that lists them (60_exceptions.md R119; the schedule as data is the model's choice, log 4). -/
def Obligations.ScheduleChoosesTheMachine : Prop :=
  (∀ (s : State) (k : Nat) (rest : List Event), s.schedule = .run k :: rest →
    (∀ m, s.machines[k]? = some m →
      ∃ f, f.mach = m ∧ f.self = k ∧ SameSystem { s with schedule := rest } f ∧ step s = machineStep f) ∧
    (s.machines[k]? = none → step s = .refused .noSuchMachine)) ∧
  ∀ (events : List Event) (s t : State), s.schedule = [] → runEvents events s = .next t →
    runSteps events.length { s with schedule := events } = .next t

/-- An event of the host performs that operation (60_exceptions.md R142; log 4). -/
def Obligations.ScheduleRunsTheHostOperation : Prop :=
  ∀ (s : State) (op : HostOp) (rest : List Event), s.schedule = .host op :: rest →
    step s = hostStep op { s with schedule := rest }

/-! ### The host's operations -/

/-- Creating a channel (44_channel.md R90): the next channel of the wiring, empty; nothing else changes. -/
def Obligations.HostCreatesAnEmptyChannel : Prop :=
  ∀ s : State, s.chans.length < s.cfg.wiring.ends.length →
    hostStep .createChannel s = .next { s with
      chans := s.chans ++ [{ q := [] }]
      replies := s.replies ++ [.channel s.chans.length] }

/-- `spawn(image, inch, outch)` (70_reset_and_hazards.md R126, R128) of a machine of the wiring that has not been
spawned, its channels created, the image of words (R91, D29; log 10), be it the first machine or a later one: a new
machine in the reset state of 10_state.md R26, holding the image and `0` beyond it; the channels are not touched. The
value of `rb` is decision D12 (presumed, log 7), `outv` D13, `cause` D14, `fh` D15, `blk` D16. -/
def Obligations.SpawnCreatesAMachineAtReset : Prop :=
  ∀ (s : State) (image : List Int) (inch outch : Nat),
    image.all (isWord s.cfg.xlen) = true → inch < s.chans.length → outch < s.chans.length →
    wiringOk s.cfg.wiring = true → s.bindingAgrees inch outch = true →
    ∃ t m, hostStep (.spawn image inch outch) s = .next t ∧
      t.machines = s.machines ++ [m] ∧ t.anyMachine = true ∧ t.cfg = s.cfg ∧ t.chans = s.chans ∧
      (s.anyMachine = true → t.mach = s.mach ∧ t.self = s.self) ∧
      (s.anyMachine = false → t.machines = [m] ∧ t.mach = m ∧ t.self = 0) ∧
      t.schedule = s.schedule ∧ t.replies = s.replies ++ [.handle s.machines.length] ∧
      (∀ a, m.cell a = image[a]?.getD 0) ∧ m.mem.wf = true ∧ m.ext = image.length ∧
      m.pc = 0 ∧ m.rb = 0 ∧ m.outv = false ∧ m.lastOutput = none ∧ m.status = .running ∧
      m.fh = false ∧ m.blk = false ∧ m.cause = .none ∧ m.inch = inch ∧ m.outch = outch

/-- `push(ch, v)` by the host, `v` a word, on a channel whose producer end it owns or which is the input of a machine
(44_channel.md R92, R98): it goes to the tail, whatever the channel holds and whatever its consumer does; nothing else
changes. That the host may push on a machine's input whose producer is a machine is the seeding of R99, whose moment the
hardware does not check (U15; log 11). -/
def Obligations.HostPushAppends : Prop :=
  ∀ (s : State) (ch : Nat) (c : Channel) (e : Ends) (v : Int), s.chans[ch]? = some c →
    s.cfg.wiring.ends[ch]? = some e → e.producer = .host ∨ e.consumer ≠ .host → isWord s.cfg.xlen v = true →
    hostStep (.push ch v) s = .next { s with chans := s.chans.set ch { c with q := c.q ++ [v] } }

/-- `pop(ch)` by the host on an end it owns (44_channel.md R93): the head is removed and returned; while the channel
is empty there is no step. -/
def Obligations.HostPopTakesTheHead : Prop :=
  ∀ (s : State) (ch : Nat) (c : Channel), s.chans[ch]? = some c → s.hostConsumes ch = true →
    (c.q = [] → hostStep (.pop ch) s = .fault .hostWaits) ∧
    (∀ v rest, c.q = v :: rest →
      hostStep (.pop ch) s = .next { s with
        chans := s.chans.set ch { c with q := rest }
        replies := s.replies ++ [.value v] })

/-- What the model refuses of the host: a value that is no word, pushed or in an image (decision D22); a spawn in a
wiring that gives a channel two producers or two consumers, or of a machine that the wiring does not have or that has
been spawned (R91, decisions D27, D29; log 10); a channel beyond the wiring; a `push` on a channel from a machine to
the host, and a `pop` or `try_pop` on an end the host does not own (R98; log 11); a machine or a channel that does not
exist. -/
def Obligations.HostOperationsRefused : Prop :=
  ∀ s : State,
    (∀ (ch : Nat) (c : Channel) (v : Int), s.chans[ch]? = some c → s.hostMayPush ch = true →
      isWord s.cfg.xlen v = false → hostStep (.push ch v) s = .refused .notAWord) ∧
    (∀ (ch : Nat) (c : Channel) (e : Ends) (v : Int), s.chans[ch]? = some c → s.cfg.wiring.ends[ch]? = some e →
      e.producer ≠ .host → e.consumer = .host → hostStep (.push ch v) s = .refused .notTheHostsEnd) ∧
    (∀ image inch outch, image.all (isWord s.cfg.xlen) = false →
      hostStep (.spawn image inch outch) s = .refused .notAWord) ∧
    (∀ image inch outch, image.all (isWord s.cfg.xlen) = true → inch < s.chans.length → outch < s.chans.length →
      wiringOk s.cfg.wiring = false ∨ s.bindingAgrees inch outch = false →
      hostStep (.spawn image inch outch) s = .refused .wiringBroken) ∧
    (∀ image inch outch, image.all (isWord s.cfg.xlen) = true → s.chans.length ≤ inch ∨ s.chans.length ≤ outch →
      hostStep (.spawn image inch outch) s = .refused .noSuchChannel) ∧
    (s.cfg.wiring.ends.length ≤ s.chans.length → hostStep .createChannel s = .refused .beyondTheWiring) ∧
    (∀ (ch : Nat) (c : Channel), s.chans[ch]? = some c → s.hostConsumes ch = false →
      hostStep (.pop ch) s = .refused .notTheHostsEnd ∧ hostStep (.tryPop ch) s = .refused .notTheHostsEnd) ∧
    (∀ ch v, s.chans.length ≤ ch → hostStep (.push ch v) s = .refused .noSuchChannel ∧
      hostStep (.pop ch) s = .refused .noSuchChannel ∧ hostStep (.tryPop ch) s = .refused .noSuchChannel) ∧
    (∀ k, s.machines.length ≤ k → hostStep (.forceHalt k) s = .refused .noSuchMachine ∧
      hostStep (.wait k) s = .refused .noSuchMachine ∧ hostStep (.lastOutput k) s = .refused .noSuchMachine ∧
      hostStep (.dump k) s = .refused .noSuchMachine)

/-- `try_pop(ch)` by the host (44_channel.md R94, decision D17): the head of a channel that holds a word, `Empty` only
of an empty one, and that changes nothing. That an empty channel is answered `Empty` at once is the model's choice:
R94 also lets it wait on, which here is a later place in the schedule (log 13). -/
def Obligations.HostTryPopAnswersEmptyOnlyWhenEmpty : Prop :=
  ∀ (s : State) (ch : Nat) (c : Channel), s.chans[ch]? = some c → s.hostConsumes ch = true →
    (c.q = [] → hostStep (.tryPop ch) s = .next { s with replies := s.replies ++ [.empty] }) ∧
    (∀ v rest, c.q = v :: rest →
      hostStep (.tryPop ch) s = .next { s with
        chans := s.chans.set ch { c with q := rest }
        replies := s.replies ++ [.value v] })

/-- `force_halt()` on machine `k` (60_exceptions.md R112, decision D15): `fh` of that machine is set, at any time, and
nothing else changes. -/
def Obligations.ForceHaltSetsTheFlagOnly : Prop :=
  ∀ (s : State) (k : Nat), k < s.machines.length →
    ∃ t, hostStep (.forceHalt k) s = .next t ∧
      t.machines = s.machines.modify k (fun m => { m with fh := true }) ∧ t.self = s.self ∧
      t.cfg = s.cfg ∧ t.anyMachine = s.anyMachine ∧ t.chans = s.chans ∧ t.schedule = s.schedule ∧
      t.replies = s.replies

/-- `wait()` on machine `k` (60_exceptions.md R120, decision D28): enabled when the machine has stopped, changes
nothing, returns the status and the cause. -/
def Obligations.WaitReturnsWhenStopped : Prop :=
  ∀ (s : State) (k : Nat) (m : Mach), s.machines[k]? = some m →
    (m.status = .running → hostStep (.wait k) s = .fault .hostWaits) ∧
    (m.status ≠ .running →
      hostStep (.wait k) s = .next { s with replies := s.replies ++ [.stopped m.status m.cause] })

/-- `last_output()` of machine `k` (60_exceptions.md R121, 10_state.md R15; decision D13): the last emitted value, or
no value before the first OUT; nothing changes. -/
def Obligations.LastOutputReadsTheRegister : Prop :=
  ∀ (s : State) (k : Nat) (m : Mach), s.machines[k]? = some m →
    (m.outv = true → hostStep (.lastOutput k) s = .next { s with
      replies := s.replies ++ [.lastOutput (some m.out)] }) ∧
    (m.outv = false → hostStep (.lastOutput k) s = .next { s with
      replies := s.replies ++ [.lastOutput none] })

/-- `dump()` of machine `k` (20_memory.md R47, decision D18): once the machine has stopped, `ext` and the cells `0 ..
ext-1`; nothing changes. -/
def Obligations.DumpReadsTheMemoryOfAStoppedMachine : Prop :=
  ∀ (s : State) (k : Nat) (m : Mach), s.machines[k]? = some m →
    (m.status = .running → hostStep (.dump k) s = .fault .hostWaits) ∧
    (m.status ≠ .running → ∃ cells, hostStep (.dump k) s = .next { s with
        replies := s.replies ++ [.memory m.ext cells] } ∧
      cells.length = m.ext ∧ ∀ a, a < m.ext → cells[a]? = some (m.cell a))

/-- What the host can do to a machine that exists (10_state.md R24, 60_exceptions.md R142): nothing but set its `fh`. -/
def Obligations.HostChangesOnlyForceHalt : Prop :=
  ∀ (op : HostOp) (s t : State) (k : Nat) (m : Mach), hostStep op s = .next t → s.machines[k]? = some m →
    t.self = s.self ∧ t.cfg = s.cfg ∧ t.schedule = s.schedule ∧
      (t.machines[k]? = some m ∨ t.machines[k]? = some { m with fh := true })

/-! ### Invariants -/

/-- Every step of the system, the host's steps before the first spawn among them, keeps the invariant (10_state.md R25
a, c, d, e, h, with the ports of R19 and R91): canonical memory, zero beyond the extent, words everywhere, a cause
exactly when Faulted, `blk` only at an IN that can complete, every machine bound to the ports the wiring gives it, no
two machines at one end of a channel. -/
def Obligations.StepKeepsTheInvariant : Prop :=
  ∀ s t : State, Inv s → step s = .next t → Inv t

/-- No step takes a machine back (10_state.md R25 b, f, g, R12, R17; 60_exceptions.md R109, R110): it stays, its
extent never shrinks, `outv` and `fh` never go from 1 to 0, and once Halted or Faulted nothing of it but `fh` changes.
-/
def Obligations.MachinesNeverGoBack : Prop :=
  ∀ (s t : State) (k : Nat) (m : Mach), step s = .next t → s.machines[k]? = some m →
    ∃ m', t.machines[k]? = some m' ∧ Later m m'

/-- The run-status state machine, row by row (60_exceptions.md R110): a spawned machine is Running; only a Running
machine steps; a force-halt seen at a boundary ends it Halted; otherwise the fault of the word at `pc` or of its
instruction, where there is one (R101, R107), ends it Faulted with that fault's cause, `pc` and memory as they were
(R105, decisions D11 and D14, log 14); otherwise HLT ends it Halted and every other instruction leaves it Running; a
machine that is Halted or Faulted stays so whatever any agent does. -/
def Obligations.StatusFollowsItsDiagram : Prop :=
  (∀ image inch outch, (Mach.spawned image inch outch).status = .running) ∧
  (∀ s t : State, machineStep s = .next t →
    s.mach.status = .running ∧
    (s.mach.blk = false ∧ s.mach.fh = true → t.mach.status = .halted) ∧
    (¬(s.mach.blk = false ∧ s.mach.fh = true) →
      (∀ c, s.mach.nextFault s.cfg.xlen = some c →
        t.mach.status = .faulted ∧ t.mach.cause = c ∧ t.mach.pc = s.mach.pc ∧ t.mach.mem = s.mach.mem) ∧
      (s.mach.nextFault s.cfg.xlen = none →
        (decode (s.mach.cell s.mach.pc) = .ok .hlt → t.mach.status = .halted) ∧
        (decode (s.mach.cell s.mach.pc) ≠ .ok .hlt → t.mach.status = .running)))) ∧
  (∀ (s t : State) (k : Nat) (m : Mach), step s = .next t → s.machines[k]? = some m → m.status ≠ .running →
    ∃ m', t.machines[k]? = some m' ∧ m'.status = m.status)

/-- In a deadlock no machine has a step: only the host can go on (60_exceptions.md R122). -/
def Obligations.DeadlockStopsEveryMachine : Prop :=
  ∀ (s : State) (k : Nat), s.deadlocked = true → ∀ t, eventStep (.run k) s ≠ .next t
end

