-- ==== Sys2Proof/Laws/State.lean ====
section
/-! SUPPORT. One lemma per field per update, so that no proof unfolds a record update; and what a pop can answer. -/

namespace Sys2Proof.Machine

open Sys2Proof

/-! Growth: what it changes and what it keeps. -/

@[simp] theorem Mach.grow_mem (m : Mach) (a : Nat) : (m.grow a).mem = m.mem := rfl
@[simp] theorem Mach.grow_ext (m : Mach) (a : Nat) : (m.grow a).ext = max m.ext (a + 1) := rfl
@[simp] theorem Mach.grow_pc (m : Mach) (a : Nat) : (m.grow a).pc = m.pc := rfl
@[simp] theorem Mach.grow_rb (m : Mach) (a : Nat) : (m.grow a).rb = m.rb := rfl
@[simp] theorem Mach.grow_out (m : Mach) (a : Nat) : (m.grow a).out = m.out := rfl
@[simp] theorem Mach.grow_outv (m : Mach) (a : Nat) : (m.grow a).outv = m.outv := rfl
@[simp] theorem Mach.grow_status (m : Mach) (a : Nat) : (m.grow a).status = m.status := rfl
@[simp] theorem Mach.grow_fh (m : Mach) (a : Nat) : (m.grow a).fh = m.fh := rfl
@[simp] theorem Mach.grow_blk (m : Mach) (a : Nat) : (m.grow a).blk = m.blk := rfl
@[simp] theorem Mach.grow_cause (m : Mach) (a : Nat) : (m.grow a).cause = m.cause := rfl
@[simp] theorem Mach.grow_inch (m : Mach) (a : Nat) : (m.grow a).inch = m.inch := rfl
@[simp] theorem Mach.grow_outch (m : Mach) (a : Nat) : (m.grow a).outch = m.outch := rfl

/-! Growth of several accesses: what it changes and what it keeps. -/

theorem Mach.growAll_eq (m : Mach) (as : List Nat) :
    m.growAll as = { m with ext := m.extAfter as } := by
  induction as generalizing m with
  | nil => rfl
  | cons a as ih => exact ih (m.grow a)

@[simp] theorem Mach.growAll_mem (m : Mach) (as : List Nat) : (m.growAll as).mem = m.mem := by rw [Mach.growAll_eq]
@[simp] theorem Mach.growAll_ext (m : Mach) (as : List Nat) : (m.growAll as).ext = m.extAfter as := by rw [Mach.growAll_eq]
@[simp] theorem Mach.growAll_pc (m : Mach) (as : List Nat) : (m.growAll as).pc = m.pc := by rw [Mach.growAll_eq]
@[simp] theorem Mach.growAll_rb (m : Mach) (as : List Nat) : (m.growAll as).rb = m.rb := by rw [Mach.growAll_eq]
@[simp] theorem Mach.growAll_out (m : Mach) (as : List Nat) : (m.growAll as).out = m.out := by rw [Mach.growAll_eq]
@[simp] theorem Mach.growAll_outv (m : Mach) (as : List Nat) : (m.growAll as).outv = m.outv := by rw [Mach.growAll_eq]
@[simp] theorem Mach.growAll_status (m : Mach) (as : List Nat) : (m.growAll as).status = m.status := by rw [Mach.growAll_eq]
@[simp] theorem Mach.growAll_fh (m : Mach) (as : List Nat) : (m.growAll as).fh = m.fh := by rw [Mach.growAll_eq]
@[simp] theorem Mach.growAll_blk (m : Mach) (as : List Nat) : (m.growAll as).blk = m.blk := by rw [Mach.growAll_eq]
@[simp] theorem Mach.growAll_cause (m : Mach) (as : List Nat) : (m.growAll as).cause = m.cause := by rw [Mach.growAll_eq]
@[simp] theorem Mach.growAll_inch (m : Mach) (as : List Nat) : (m.growAll as).inch = m.inch := by rw [Mach.growAll_eq]
@[simp] theorem Mach.growAll_outch (m : Mach) (as : List Nat) : (m.growAll as).outch = m.outch := by rw [Mach.growAll_eq]

/-! Writing a cell: what it changes and what it keeps. -/

@[simp] theorem Mach.memWrite_mem (m : Mach) (a : Nat) (v : Int) : (m.memWrite a v).mem = m.mem.write a v := rfl
@[simp] theorem Mach.memWrite_ext (m : Mach) (a : Nat) (v : Int) : (m.memWrite a v).ext = max m.ext (a + 1) := rfl
@[simp] theorem Mach.memWrite_pc (m : Mach) (a : Nat) (v : Int) : (m.memWrite a v).pc = m.pc := rfl
@[simp] theorem Mach.memWrite_rb (m : Mach) (a : Nat) (v : Int) : (m.memWrite a v).rb = m.rb := rfl
@[simp] theorem Mach.memWrite_out (m : Mach) (a : Nat) (v : Int) : (m.memWrite a v).out = m.out := rfl
@[simp] theorem Mach.memWrite_outv (m : Mach) (a : Nat) (v : Int) : (m.memWrite a v).outv = m.outv := rfl
@[simp] theorem Mach.memWrite_status (m : Mach) (a : Nat) (v : Int) : (m.memWrite a v).status = m.status := rfl
@[simp] theorem Mach.memWrite_fh (m : Mach) (a : Nat) (v : Int) : (m.memWrite a v).fh = m.fh := rfl
@[simp] theorem Mach.memWrite_blk (m : Mach) (a : Nat) (v : Int) : (m.memWrite a v).blk = m.blk := rfl
@[simp] theorem Mach.memWrite_cause (m : Mach) (a : Nat) (v : Int) : (m.memWrite a v).cause = m.cause := rfl
@[simp] theorem Mach.memWrite_inch (m : Mach) (a : Nat) (v : Int) : (m.memWrite a v).inch = m.inch := rfl
@[simp] theorem Mach.memWrite_outch (m : Mach) (a : Nat) (v : Int) : (m.memWrite a v).outch = m.outch := rfl

/-! Advancing `pc`: what it changes and what it keeps. -/

@[simp] theorem Mach.advance_mem (m : Mach) (len : Nat) : (m.advance len).mem = m.mem := rfl
@[simp] theorem Mach.advance_ext (m : Mach) (len : Nat) : (m.advance len).ext = m.ext := rfl
@[simp] theorem Mach.advance_pc (m : Mach) (len : Nat) : (m.advance len).pc = m.pc + len := rfl
@[simp] theorem Mach.advance_rb (m : Mach) (len : Nat) : (m.advance len).rb = m.rb := rfl
@[simp] theorem Mach.advance_out (m : Mach) (len : Nat) : (m.advance len).out = m.out := rfl
@[simp] theorem Mach.advance_outv (m : Mach) (len : Nat) : (m.advance len).outv = m.outv := rfl
@[simp] theorem Mach.advance_status (m : Mach) (len : Nat) : (m.advance len).status = m.status := rfl
@[simp] theorem Mach.advance_fh (m : Mach) (len : Nat) : (m.advance len).fh = m.fh := rfl
@[simp] theorem Mach.advance_blk (m : Mach) (len : Nat) : (m.advance len).blk = m.blk := rfl
@[simp] theorem Mach.advance_cause (m : Mach) (len : Nat) : (m.advance len).cause = m.cause := rfl
@[simp] theorem Mach.advance_inch (m : Mach) (len : Nat) : (m.advance len).inch = m.inch := rfl
@[simp] theorem Mach.advance_outch (m : Mach) (len : Nat) : (m.advance len).outch = m.outch := rfl

/-! A taken jump: what it changes and what it keeps. -/

@[simp] theorem Mach.jump_mem (m : Mach) (t : Nat) : (m.jump t).mem = m.mem := rfl
@[simp] theorem Mach.jump_ext (m : Mach) (t : Nat) : (m.jump t).ext = m.ext := rfl
@[simp] theorem Mach.jump_pc (m : Mach) (t : Nat) : (m.jump t).pc = t := rfl
@[simp] theorem Mach.jump_rb (m : Mach) (t : Nat) : (m.jump t).rb = m.rb := rfl
@[simp] theorem Mach.jump_out (m : Mach) (t : Nat) : (m.jump t).out = m.out := rfl
@[simp] theorem Mach.jump_outv (m : Mach) (t : Nat) : (m.jump t).outv = m.outv := rfl
@[simp] theorem Mach.jump_status (m : Mach) (t : Nat) : (m.jump t).status = m.status := rfl
@[simp] theorem Mach.jump_fh (m : Mach) (t : Nat) : (m.jump t).fh = m.fh := rfl
@[simp] theorem Mach.jump_blk (m : Mach) (t : Nat) : (m.jump t).blk = m.blk := rfl
@[simp] theorem Mach.jump_cause (m : Mach) (t : Nat) : (m.jump t).cause = m.cause := rfl
@[simp] theorem Mach.jump_inch (m : Mach) (t : Nat) : (m.jump t).inch = m.inch := rfl
@[simp] theorem Mach.jump_outch (m : Mach) (t : Nat) : (m.jump t).outch = m.outch := rfl

/-! Entering and leaving the wait: what it changes and what it keeps. -/

@[simp] theorem Mach.setBlk_mem (m : Mach) (b : Bool) : (m.setBlk b).mem = m.mem := rfl
@[simp] theorem Mach.setBlk_ext (m : Mach) (b : Bool) : (m.setBlk b).ext = m.ext := rfl
@[simp] theorem Mach.setBlk_pc (m : Mach) (b : Bool) : (m.setBlk b).pc = m.pc := rfl
@[simp] theorem Mach.setBlk_rb (m : Mach) (b : Bool) : (m.setBlk b).rb = m.rb := rfl
@[simp] theorem Mach.setBlk_out (m : Mach) (b : Bool) : (m.setBlk b).out = m.out := rfl
@[simp] theorem Mach.setBlk_outv (m : Mach) (b : Bool) : (m.setBlk b).outv = m.outv := rfl
@[simp] theorem Mach.setBlk_status (m : Mach) (b : Bool) : (m.setBlk b).status = m.status := rfl
@[simp] theorem Mach.setBlk_fh (m : Mach) (b : Bool) : (m.setBlk b).fh = m.fh := rfl
@[simp] theorem Mach.setBlk_blk (m : Mach) (b : Bool) : (m.setBlk b).blk = b := rfl
@[simp] theorem Mach.setBlk_cause (m : Mach) (b : Bool) : (m.setBlk b).cause = m.cause := rfl
@[simp] theorem Mach.setBlk_inch (m : Mach) (b : Bool) : (m.setBlk b).inch = m.inch := rfl
@[simp] theorem Mach.setBlk_outch (m : Mach) (b : Bool) : (m.setBlk b).outch = m.outch := rfl

/-! A new relative base: what it changes and what it keeps. -/

@[simp] theorem Mach.setRb_mem (m : Mach) (r : Int) : (m.setRb r).mem = m.mem := rfl
@[simp] theorem Mach.setRb_ext (m : Mach) (r : Int) : (m.setRb r).ext = m.ext := rfl
@[simp] theorem Mach.setRb_pc (m : Mach) (r : Int) : (m.setRb r).pc = m.pc := rfl
@[simp] theorem Mach.setRb_rb (m : Mach) (r : Int) : (m.setRb r).rb = r := rfl
@[simp] theorem Mach.setRb_out (m : Mach) (r : Int) : (m.setRb r).out = m.out := rfl
@[simp] theorem Mach.setRb_outv (m : Mach) (r : Int) : (m.setRb r).outv = m.outv := rfl
@[simp] theorem Mach.setRb_status (m : Mach) (r : Int) : (m.setRb r).status = m.status := rfl
@[simp] theorem Mach.setRb_fh (m : Mach) (r : Int) : (m.setRb r).fh = m.fh := rfl
@[simp] theorem Mach.setRb_blk (m : Mach) (r : Int) : (m.setRb r).blk = m.blk := rfl
@[simp] theorem Mach.setRb_cause (m : Mach) (r : Int) : (m.setRb r).cause = m.cause := rfl
@[simp] theorem Mach.setRb_inch (m : Mach) (r : Int) : (m.setRb r).inch = m.inch := rfl
@[simp] theorem Mach.setRb_outch (m : Mach) (r : Int) : (m.setRb r).outch = m.outch := rfl

/-! A new last emitted value: what it changes and what it keeps. -/

@[simp] theorem Mach.setOut_mem (m : Mach) (v : Int) : (m.setOut v).mem = m.mem := rfl
@[simp] theorem Mach.setOut_ext (m : Mach) (v : Int) : (m.setOut v).ext = m.ext := rfl
@[simp] theorem Mach.setOut_pc (m : Mach) (v : Int) : (m.setOut v).pc = m.pc := rfl
@[simp] theorem Mach.setOut_rb (m : Mach) (v : Int) : (m.setOut v).rb = m.rb := rfl
@[simp] theorem Mach.setOut_out (m : Mach) (v : Int) : (m.setOut v).out = v := rfl
@[simp] theorem Mach.setOut_outv (m : Mach) (v : Int) : (m.setOut v).outv = true := rfl
@[simp] theorem Mach.setOut_status (m : Mach) (v : Int) : (m.setOut v).status = m.status := rfl
@[simp] theorem Mach.setOut_fh (m : Mach) (v : Int) : (m.setOut v).fh = m.fh := rfl
@[simp] theorem Mach.setOut_blk (m : Mach) (v : Int) : (m.setOut v).blk = m.blk := rfl
@[simp] theorem Mach.setOut_cause (m : Mach) (v : Int) : (m.setOut v).cause = m.cause := rfl
@[simp] theorem Mach.setOut_inch (m : Mach) (v : Int) : (m.setOut v).inch = m.inch := rfl
@[simp] theorem Mach.setOut_outch (m : Mach) (v : Int) : (m.setOut v).outch = m.outch := rfl

/-! Raising a fault: what it changes and what it keeps. -/

@[simp] theorem Mach.raise_mem (m : Mach) (c : Cause) : (m.raise c).mem = m.mem := rfl
@[simp] theorem Mach.raise_ext (m : Mach) (c : Cause) : (m.raise c).ext = m.ext := rfl
@[simp] theorem Mach.raise_pc (m : Mach) (c : Cause) : (m.raise c).pc = m.pc := rfl
@[simp] theorem Mach.raise_rb (m : Mach) (c : Cause) : (m.raise c).rb = m.rb := rfl
@[simp] theorem Mach.raise_out (m : Mach) (c : Cause) : (m.raise c).out = m.out := rfl
@[simp] theorem Mach.raise_outv (m : Mach) (c : Cause) : (m.raise c).outv = m.outv := rfl
@[simp] theorem Mach.raise_status (m : Mach) (c : Cause) : (m.raise c).status = .faulted := rfl
@[simp] theorem Mach.raise_fh (m : Mach) (c : Cause) : (m.raise c).fh = m.fh := rfl
@[simp] theorem Mach.raise_blk (m : Mach) (c : Cause) : (m.raise c).blk = m.blk := rfl
@[simp] theorem Mach.raise_cause (m : Mach) (c : Cause) : (m.raise c).cause = c := rfl
@[simp] theorem Mach.raise_inch (m : Mach) (c : Cause) : (m.raise c).inch = m.inch := rfl
@[simp] theorem Mach.raise_outch (m : Mach) (c : Cause) : (m.raise c).outch = m.outch := rfl

/-! Halting: what it changes and what it keeps. -/

@[simp] theorem Mach.halt_mem (m : Mach) : (m.halt).mem = m.mem := rfl
@[simp] theorem Mach.halt_ext (m : Mach) : (m.halt).ext = m.ext := rfl
@[simp] theorem Mach.halt_pc (m : Mach) : (m.halt).pc = m.pc := rfl
@[simp] theorem Mach.halt_rb (m : Mach) : (m.halt).rb = m.rb := rfl
@[simp] theorem Mach.halt_out (m : Mach) : (m.halt).out = m.out := rfl
@[simp] theorem Mach.halt_outv (m : Mach) : (m.halt).outv = m.outv := rfl
@[simp] theorem Mach.halt_status (m : Mach) : (m.halt).status = .halted := rfl
@[simp] theorem Mach.halt_fh (m : Mach) : (m.halt).fh = m.fh := rfl
@[simp] theorem Mach.halt_blk (m : Mach) : (m.halt).blk = m.blk := rfl
@[simp] theorem Mach.halt_cause (m : Mach) : (m.halt).cause = m.cause := rfl
@[simp] theorem Mach.halt_inch (m : Mach) : (m.halt).inch = m.inch := rfl
@[simp] theorem Mach.halt_outch (m : Mach) : (m.halt).outch = m.outch := rfl

/-! Setting the force-halt flag: what it changes and what it keeps. -/

@[simp] theorem Mach.forceHalt_mem (m : Mach) : (m.forceHalt).mem = m.mem := rfl
@[simp] theorem Mach.forceHalt_ext (m : Mach) : (m.forceHalt).ext = m.ext := rfl
@[simp] theorem Mach.forceHalt_pc (m : Mach) : (m.forceHalt).pc = m.pc := rfl
@[simp] theorem Mach.forceHalt_rb (m : Mach) : (m.forceHalt).rb = m.rb := rfl
@[simp] theorem Mach.forceHalt_out (m : Mach) : (m.forceHalt).out = m.out := rfl
@[simp] theorem Mach.forceHalt_outv (m : Mach) : (m.forceHalt).outv = m.outv := rfl
@[simp] theorem Mach.forceHalt_status (m : Mach) : (m.forceHalt).status = m.status := rfl
@[simp] theorem Mach.forceHalt_fh (m : Mach) : (m.forceHalt).fh = true := rfl
@[simp] theorem Mach.forceHalt_blk (m : Mach) : (m.forceHalt).blk = m.blk := rfl
@[simp] theorem Mach.forceHalt_cause (m : Mach) : (m.forceHalt).cause = m.cause := rfl
@[simp] theorem Mach.forceHalt_inch (m : Mach) : (m.forceHalt).inch = m.inch := rfl
@[simp] theorem Mach.forceHalt_outch (m : Mach) : (m.forceHalt).outch = m.outch := rfl

/-! The update `withMach` of the system: what it changes and what it keeps. -/

@[simp] theorem State.withMach_cfg (s : State) (m : Mach) : (s.withMach m).cfg = s.cfg := rfl
@[simp] theorem State.withMach_anyMachine (s : State) (m : Mach) : (s.withMach m).anyMachine = s.anyMachine := rfl
@[simp] theorem State.withMach_mach (s : State) (m : Mach) : (s.withMach m).mach = m := rfl
@[simp] theorem State.withMach_before (s : State) (m : Mach) : (s.withMach m).before = s.before := rfl
@[simp] theorem State.withMach_after (s : State) (m : Mach) : (s.withMach m).after = s.after := rfl
@[simp] theorem State.withMach_chans (s : State) (m : Mach) : (s.withMach m).chans = s.chans := rfl
@[simp] theorem State.withMach_schedule (s : State) (m : Mach) : (s.withMach m).schedule = s.schedule := rfl
@[simp] theorem State.withMach_replies (s : State) (m : Mach) : (s.withMach m).replies = s.replies := rfl

/-! The update `setChannel` of the system: what it changes and what it keeps. -/

@[simp] theorem State.setChannel_cfg (s : State) (ch : Nat) (c : Channel) : (s.setChannel ch c).cfg = s.cfg := rfl
@[simp] theorem State.setChannel_anyMachine (s : State) (ch : Nat) (c : Channel) : (s.setChannel ch c).anyMachine = s.anyMachine := rfl
@[simp] theorem State.setChannel_mach (s : State) (ch : Nat) (c : Channel) : (s.setChannel ch c).mach = s.mach := rfl
@[simp] theorem State.setChannel_before (s : State) (ch : Nat) (c : Channel) : (s.setChannel ch c).before = s.before := rfl
@[simp] theorem State.setChannel_after (s : State) (ch : Nat) (c : Channel) : (s.setChannel ch c).after = s.after := rfl
@[simp] theorem State.setChannel_chans (s : State) (ch : Nat) (c : Channel) : (s.setChannel ch c).chans = s.chans.set ch c := rfl
@[simp] theorem State.setChannel_schedule (s : State) (ch : Nat) (c : Channel) : (s.setChannel ch c).schedule = s.schedule := rfl
@[simp] theorem State.setChannel_replies (s : State) (ch : Nat) (c : Channel) : (s.setChannel ch c).replies = s.replies := rfl

/-! The update `reply` of the system: what it changes and what it keeps. -/

@[simp] theorem State.reply_cfg (s : State) (r : Reply) : (s.reply r).cfg = s.cfg := rfl
@[simp] theorem State.reply_anyMachine (s : State) (r : Reply) : (s.reply r).anyMachine = s.anyMachine := rfl
@[simp] theorem State.reply_mach (s : State) (r : Reply) : (s.reply r).mach = s.mach := rfl
@[simp] theorem State.reply_before (s : State) (r : Reply) : (s.reply r).before = s.before := rfl
@[simp] theorem State.reply_after (s : State) (r : Reply) : (s.reply r).after = s.after := rfl
@[simp] theorem State.reply_chans (s : State) (r : Reply) : (s.reply r).chans = s.chans := rfl
@[simp] theorem State.reply_schedule (s : State) (r : Reply) : (s.reply r).schedule = s.schedule := rfl
@[simp] theorem State.reply_replies (s : State) (r : Reply) : (s.reply r).replies = s.replies ++ [r] := rfl

/-! Adding a machine: what it keeps. -/

@[simp] theorem State.addMachine_anyMachine (s : State) (m : Mach) : (s.addMachine m).anyMachine = true := by
  unfold State.addMachine
  split
  · assumption
  · rfl

@[simp] theorem State.addMachine_cfg (s : State) (m : Mach) : (s.addMachine m).cfg = s.cfg := by
  unfold State.addMachine
  split <;> rfl

@[simp] theorem State.addMachine_chans (s : State) (m : Mach) : (s.addMachine m).chans = s.chans := by
  unfold State.addMachine
  split <;> rfl

@[simp] theorem State.addMachine_schedule (s : State) (m : Mach) : (s.addMachine m).schedule = s.schedule := by
  unfold State.addMachine
  split <;> rfl

@[simp] theorem State.addMachine_replies (s : State) (m : Mach) : (s.addMachine m).replies = s.replies := by
  unfold State.addMachine
  split <;> rfl

/-- The first machine comes into focus. -/
theorem State.addMachine_first {s : State} (h : s.anyMachine = false) (m : Mach) :
    (s.addMachine m).mach = m ∧ (s.addMachine m).self = 0 := by
  simp [State.addMachine, h, State.self]

/-- A later machine leaves the focus where it is. -/
theorem State.addMachine_later {s : State} (h : s.anyMachine = true) (m : Mach) :
    (s.addMachine m).mach = s.mach ∧ (s.addMachine m).self = s.self := by
  simp [State.addMachine, h, State.self]

/-- The new machine stands under the next number. -/
@[simp] theorem State.machines_addMachine (s : State) (m : Mach) : (s.addMachine m).machines = s.machines ++ [m] := by
  unfold State.addMachine State.machines
  split <;> simp_all

@[simp] theorem Channel.push_q (c : Channel) (v : Int) : (c.push v).q = c.q ++ [v] := rfl

/-- `pop` answers nothing exactly on an empty channel (44_channel.md R93). -/
theorem Channel.pop_eq_none_iff (c : Channel) : c.pop = none ↔ c.q = [] := by
  unfold Channel.pop
  cases c.q <;> simp

/-- What a successful `pop` gives: the head, and the channel with the rest (44_channel.md R93). -/
theorem Channel.pop_eq_some_iff (c c' : Channel) (v : Int) :
    c.pop = some (v, c') ↔ c.q = v :: c'.q := by
  obtain ⟨q⟩ := c
  obtain ⟨q'⟩ := c'
  cases q <;> simp [Channel.pop]

end Sys2Proof.Machine
end

