-- ==== Sys2Proof/Laws/Memory.lean ====
section
/-! SUPPORT. The laws of memory: every memory operation keeps the canonical form, a read after a write gives the value
written, and every other cell reads as before. -/

namespace Sys2Proof.Machine

open Sys2Proof

/-- Below the first listed address nothing is listed. -/
theorem Memory.read_below {m : Memory} {lo a : Nat} (h : m.wfFrom lo = true) (ha : a < lo) :
    m.read a = Memory.unlisted := by
  cases m with
  | nil => rfl
  | cons e rest =>
    obtain ⟨b, w⟩ := e
    simp only [Memory.wfFrom, Bool.and_eq_true, decide_eq_true_eq] at h
    simp only [Memory.read]
    rw [if_neg (by omega), if_pos (by omega)]

/-- A canonical form from `lo` is one from every lower address. -/
theorem Memory.wfFrom_mono {m : Memory} {lo lo' : Nat} (h : m.wfFrom lo = true) (hlo : lo' ≤ lo) :
    m.wfFrom lo' = true := by
  cases m with
  | nil => rfl
  | cons e rest =>
    simp only [Memory.wfFrom, Bool.and_eq_true, decide_eq_true_eq] at h ⊢
    exact ⟨⟨by omega, h.1.2⟩, h.2⟩

/-- A write keeps the canonical form. -/
theorem Memory.wfFrom_write {m : Memory} {lo a : Nat} {v : Int} (h : m.wfFrom lo = true) (ha : lo ≤ a) :
    (m.write a v).wfFrom lo = true := by
  induction m generalizing lo with
  | nil => by_cases hv : v = Memory.unlisted <;> simp [Memory.write, Memory.wfFrom, hv, ha]
  | cons e rest ih =>
    obtain ⟨b, w⟩ := e
    have hb := h
    simp only [Memory.wfFrom, Bool.and_eq_true, decide_eq_true_eq] at hb
    obtain ⟨⟨hlo, hw⟩, hrest⟩ := hb
    simp only [Memory.write]
    split
    · split
      · exact h
      · rename_i hv
        simp only [Memory.wfFrom, Bool.and_eq_true, decide_eq_true_eq]
        exact ⟨⟨ha, hv⟩, ⟨by omega, hw⟩, hrest⟩
    · split
      · split
        · exact Memory.wfFrom_mono hrest (by omega)
        · rename_i hv
          subst_vars
          simp only [Memory.wfFrom, Bool.and_eq_true, decide_eq_true_eq]
          exact ⟨⟨ha, hv⟩, hrest⟩
      · simp only [Memory.wfFrom, Bool.and_eq_true, decide_eq_true_eq]
        exact ⟨⟨hlo, hw⟩, ih hrest (by omega)⟩

/-- Every write keeps the canonical form. -/
theorem Memory.wf_write {m : Memory} (h : m.wf = true) (a : Nat) (v : Int) : (m.write a v).wf = true :=
  Memory.wfFrom_write h (Nat.zero_le a)

theorem Memory.read_write_from {m : Memory} {lo : Nat} (h : m.wfFrom lo = true) (a b : Nat) (v : Int) :
    (m.write a v).read b = if b = a then v else m.read b := by
  induction m generalizing lo with
  | nil =>
    by_cases hv : v = Memory.unlisted <;> by_cases hab : b = a <;>
      simp [Memory.write, Memory.read, hv, hab]
  | cons e rest ih =>
    obtain ⟨c, w⟩ := e
    simp only [Memory.wfFrom, Bool.and_eq_true, decide_eq_true_eq] at h
    obtain ⟨⟨_, hw⟩, hrest⟩ := h
    have hlow : ∀ x, x < c + 1 → Memory.read rest x = Memory.unlisted := fun x hx =>
      Memory.read_below hrest hx
    simp only [Memory.write]
    split
    · split
      · simp only [Memory.read]
        grind
      · simp only [Memory.read]
        grind
    · split
      · split
        · simp only [Memory.read]
          grind
        · simp only [Memory.read]
          grind
      · simp only [Memory.read, ih hrest]
        grind

/-- A read after a write, in canonical memory: the value written at that address, the old value everywhere else
(20_memory.md R34). -/
theorem Memory.read_write {m : Memory} (h : m.wf = true) (a b : Nat) (v : Int) :
    (m.write a v).read b = if b = a then v else m.read b :=
  Memory.read_write_from h a b v

/-- The image's memory is canonical from the image's first address. -/
theorem Memory.wfFrom_ofImage (a : Nat) (image : List Int) : (Memory.ofImage a image).wfFrom a = true := by
  induction image generalizing a with
  | nil => rfl
  | cons v vs ih =>
    simp only [Memory.ofImage]
    split
    · exact Memory.wfFrom_mono (ih (a + 1)) (by omega)
    · rename_i hv
      simp [Memory.wfFrom, hv, ih (a + 1)]

/-- The memory of an image is canonical (10_state.md R26). -/
theorem Memory.wf_ofImage (image : List Int) : (Memory.ofImage 0 image).wf = true :=
  Memory.wfFrom_ofImage 0 image

/-- The memory of an image reads as the image from its first address on, and `0` beyond (10_state.md R26). -/
theorem Memory.read_ofImage (a k : Nat) (image : List Int) :
    (Memory.ofImage a image).read (a + k) = image[k]?.getD 0 := by
  induction image generalizing a k with
  | nil => rfl
  | cons v vs ih =>
    have hlow : Memory.read (Memory.ofImage (a + 1) vs) a = Memory.unlisted :=
      Memory.read_below (Memory.wfFrom_ofImage (a + 1) vs) (by omega)
    have hk : ∀ j, a + 1 + j = a + (j + 1) := fun j => by omega
    cases k with
    | zero =>
      by_cases hv : v = Memory.unlisted <;> simp [Memory.ofImage, hv, Memory.read, hlow]
    | succ j =>
      have := ih (a + 1) j
      rw [hk] at this
      by_cases hv : v = Memory.unlisted <;> simp [Memory.ofImage, hv, Memory.read, this]

/-- What holds of every listed word and of an unlisted one holds of every read. -/
theorem Memory.read_of_all {p : Int → Prop} {m : Memory} (h0 : p Memory.unlisted) (h : ∀ e ∈ m, p e.2) (a : Nat) :
    p (m.read a) := by
  induction m with
  | nil => exact h0
  | cons e rest ih =>
    simp only [Memory.read]
    split
    · exact h e List.mem_cons_self
    · split
      · exact h0
      · exact ih fun e' he' => h e' (List.mem_cons_of_mem _ he')

/-- Beyond every listed address nothing is listed. -/
theorem Memory.read_beyond {m : Memory} {n a : Nat} (h : ∀ e ∈ m, e.1 < n) (ha : n ≤ a) :
    m.read a = Memory.unlisted := by
  induction m with
  | nil => rfl
  | cons e rest ih =>
    have he := h e List.mem_cons_self
    simp only [Memory.read]
    rw [if_neg (by omega)]
    split
    · rfl
    · exact ih fun e' he' => h e' (List.mem_cons_of_mem _ he')

/-- Reset memory is canonical. -/
theorem State.reset_mem_wf : State.reset.mach.mem.wf = true := rfl

/-! The same of one machine. -/

@[simp] theorem Mach.cell_grow (m : Mach) (a b : Nat) : (m.grow a).cell b = m.cell b := rfl

@[simp] theorem Mach.cell_growAll (m : Mach) (as : List Nat) (b : Nat) :
    (m.growAll as).cell b = m.cell b := by simp [Mach.cell]

/-- A write keeps the canonical form of a machine's memory. -/
theorem Mach.memWrite_wf {m : Mach} (h : m.mem.wf = true) (a : Nat) (v : Int) :
    (m.memWrite a v).mem.wf = true := by simpa using Memory.wf_write h a v

/-- `MemWrite` stores one cell (20_memory.md R34). -/
theorem Mach.cell_memWrite {m : Mach} (h : m.mem.wf = true) (a b : Nat) (v : Int) :
    (m.memWrite a v).cell b = if b = a then v else m.cell b := by
  simpa [Mach.cell] using Memory.read_write h a b v

@[simp] theorem Mach.growAll_append (m : Mach) (as bs : List Nat) :
    (m.growAll as).growAll bs = m.growAll (as ++ bs) := by simp [Mach.growAll]

theorem Mach.grow_eq_growAll (m : Mach) (a : Nat) : m.grow a = m.growAll [a] := rfl

@[simp] theorem Mach.growAll_grow (m : Mach) (as : List Nat) (b : Nat) :
    (m.growAll as).grow b = m.growAll (as ++ [b]) := by simp [Mach.growAll]

@[simp] theorem Mach.extAfter_nil (m : Mach) : m.extAfter [] = m.ext := rfl

theorem Mach.extAfter_append (m : Mach) (as bs : List Nat) :
    m.extAfter (as ++ bs) = (m.growAll as).extAfter bs := by
  rw [Mach.growAll_eq]
  simp [Mach.extAfter]

@[simp] theorem Mach.extAfter_append_single (m : Mach) (as : List Nat) (b : Nat) :
    m.extAfter (as ++ [b]) = max (m.extAfter as) (b + 1) := by simp [Mach.extAfter]

@[simp] theorem Mach.extAfter_single (m : Mach) (b : Nat) : m.extAfter [b] = max m.ext (b + 1) := rfl

/-- The extent never shrinks (10_state.md R12). -/
theorem Mach.ext_le_extAfter (m : Mach) (as : List Nat) : m.ext ≤ m.extAfter as := by
  induction as generalizing m with
  | nil => exact Nat.le_refl _
  | cons a as ih =>
    have h : (m.grow a).ext ≤ (m.grow a).extAfter as := ih (m.grow a)
    have h' : m.ext ≤ (m.grow a).ext := by simp
    exact Nat.le_trans h' h

/-- The extent covers every address accessed (10_state.md R12). -/
theorem Mach.lt_extAfter_of_mem (m : Mach) {as : List Nat} {a : Nat} (h : a ∈ as) :
    a < m.extAfter as := by
  induction as generalizing m with
  | nil => simp at h
  | cons b as ih =>
    rcases List.mem_cons.mp h with rfl | h
    · have h1 : (m.grow a).ext ≤ (m.grow a).extAfter as := Mach.ext_le_extAfter (m.grow a) as
      have h2 : a < (m.grow a).ext := by simp
      exact Nat.lt_of_lt_of_le h2 h1
    · exact ih (m.grow b) h

/-- The memory clauses of the invariant of a machine, from its listed cells alone. -/
theorem Mach.mem_inv_of_listed {x : XLen} {m : Mach} (h0 : isWord x 0 = true)
    (hext : ∀ e ∈ m.mem, e.1 < m.ext) (hword : ∀ e ∈ m.mem, isWord x e.2 = true) :
    (∀ a, m.ext ≤ a → m.cell a = 0) ∧ ∀ a, isWord x (m.cell a) = true :=
  ⟨fun _ ha => Memory.read_beyond hext ha, fun a =>
    Memory.read_of_all (p := fun w => isWord x w = true) h0 hword a⟩

end Sys2Proof.Machine
end

