-- ==== Sys2Proof/Laws/Operands.lean ====
section
/-! SUPPORT. What operand resolution answers (30_encoding.md R58 to R60), said once for each operation. -/

namespace Sys2Proof.Machine

open Sys2Proof

/-! Growth changes no operand: it changes `ext` alone. -/

@[simp] theorem Mach.litCell_growAll (m : Mach) (as : List Nat) (i : Nat) :
    (m.growAll as).litCell i = m.litCell i := by simp [Mach.litCell]

@[simp] theorem Mach.literal_growAll (m : Mach) (as : List Nat) (i : Nat) :
    (m.growAll as).literal i = m.literal i := by simp [Mach.literal]

@[simp] theorem Mach.opAddress_growAll (m : Mach) (as : List Nat) (i : Nat) (mode : Mode) :
    (m.growAll as).opAddress i mode = m.opAddress i mode := by
  cases mode <;> simp [Mach.opAddress, Mach.address]

@[simp] theorem Mach.readable_growAll (m : Mach) (as : List Nat) (i : Nat) (mode : Mode) :
    (m.growAll as).readable i mode = m.readable i mode := by simp [Mach.readable]

@[simp] theorem Mach.value_growAll (m : Mach) (as : List Nat) (i : Nat) (mode : Mode) :
    (m.growAll as).value i mode = m.value i mode := by simp [Mach.value]

@[simp] theorem Mach.readCells_growAll (m : Mach) (as : List Nat) (i : Nat) (mode : Mode) :
    (m.growAll as).readCells i mode = m.readCells i mode := by simp [Mach.readCells]

@[simp] theorem Mach.target_growAll (m : Mach) (as : List Nat) (i : Nat) (mode : Mode) :
    (m.growAll as).target i mode = m.target i mode := by simp [Mach.target]

@[simp] theorem Mach.litCell_grow (m : Mach) (a : Nat) (i : Nat) : (m.grow a).litCell i = m.litCell i := rfl

@[simp] theorem Mach.target_grow (m : Mach) (a : Nat) (i : Nat) (mode : Mode) :
    (m.grow a).target i mode = m.target i mode := Mach.target_growAll m [a] i mode

/-- Everything `load` can do (30_encoding.md R59): the operand's value, with the growth of its reads, or a
NegativeAddressFault with the growth of its literal cell. -/
theorem Mach.load_eq (m : Mach) (i : Nat) (mode : Mode) :
    m.load i mode =
      if m.readable i mode then .ok (m.value i mode) (m.growAll (m.readCells i mode))
      else .raised .negativeAddress (m.growAll [m.litCell i]) := by
  cases mode with
  | immediate => rfl
  | position =>
    by_cases h : m.literal i < 0
    · have hr : m.readable i .position = false := decide_eq_false (by omega)
      rw [hr, Mach.load, Mach.memRead]
      exact if_pos h
    · have hr : m.readable i .position = true := decide_eq_true (by omega)
      rw [hr, Mach.load, Mach.memRead]
      exact if_neg h
  | relative =>
    by_cases h : m.rb + m.literal i < 0
    · have hr : m.readable i .relative = false := decide_eq_false (by omega)
      rw [hr, Mach.load, Mach.memRead]
      exact if_pos h
    · have hr : m.readable i .relative = true := decide_eq_true (by omega)
      rw [hr, Mach.load, Mach.memRead]
      exact if_neg h

/-- Everything `dest` can do (30_encoding.md R60): the address, or a fault; either way it reads the literal cell only.
-/
theorem Mach.dest_eq (m : Mach) (i : Nat) (mode : Mode) :
    m.dest i mode =
      match m.target i mode with
      | some d => .ok d (m.growAll [m.litCell i])
      | none =>
        .raised (if mode = .immediate then .addressing else .negativeAddress) (m.growAll [m.litCell i]) := by
  cases mode with
  | immediate => rfl
  | position =>
    simp only [Mach.dest, Mach.memRead, Mach.target, Mach.opAddress, Mach.address, Mach.literal, Mach.cell_grow]
    by_cases h : m.cell (m.litCell i) < 0 <;> simp [h, Mach.grow_eq_growAll]
  | relative =>
    simp only [Mach.dest, Mach.memRead, Mach.target, Mach.opAddress, Mach.address, Mach.literal, Mach.cell_grow,
      Mach.grow_rb]
    by_cases h : m.rb + m.cell (m.litCell i) < 0 <;> simp [h, Mach.grow_eq_growAll]

/-- An Immediate destination has no address. -/
@[simp] theorem Mach.target_immediate (m : Mach) (i : Nat) : m.target i .immediate = none := rfl

end Sys2Proof.Machine
end

