-- ==== Sys2Proof/Laws/Exec.lean ====
section
/-! SUPPORT. What the shared evaluations answer, said once for each: format F3, a jump, ARB, the two channel
instructions, the end of an instruction. -/

namespace Sys2Proof.Machine

open Sys2Proof

@[simp] theorem Eval.bind_ok {α β : Type} (v : α) (m : Mach) (k : α → Mach → Eval β) :
    (Eval.ok v m).bind k = k v m := rfl

@[simp] theorem Eval.bind_raised {α β : Type} (c : Cause) (m : Mach) (k : α → Mach → Eval β) :
    (Eval.raised c m : Eval α).bind k = .raised c m := rfl

@[simp] theorem checked_ok (v : Int) (m : Mach) : checked (.ok v) m = .ok v m := rfl

@[simp] theorem checked_error (c : Cause) (m : Mach) : checked (.error c) m = .raised c m := rfl

/-- `chk` gives the exact result or an OverflowFault (40_alu.md R70). -/
theorem chk_eq (x : XLen) (v : Int) : chk x v = if isWord x v then .ok v else .error .overflow := rfl

@[simp] theorem State.finish_ok (s : State) (m : Mach) : s.finish (.ok () m) = .next (s.withMach m) := rfl

@[simp] theorem State.finish_raised (s : State) (c : Cause) (m : Mach) :
    s.finish (.raised c m) = .next (s.withMach (m.raise c)) := rfl

/-- An instruction that ends through `finish` always has a next state, and changes its machine only. -/
theorem State.finish_next (s : State) (e : Eval Unit) : ∃ m, s.finish e = .next (s.withMach m) := by
  cases e with
  | ok v m => exact ⟨m, rfl⟩
  | raised c m => exact ⟨m.raise c, rfl⟩

/-- The outcome of a fault raised after the accesses `as`. -/
theorem State.finish_raised_growAll (s : State) (c : Cause) (as : List Nat) :
    s.finish (.raised c (s.mach.growAll as)) = s.faultsAfter c as := by
  rw [State.finish_raised, State.faultsAfter, Mach.growAll_eq]
  rfl

/-- Everything a format F3 instruction can do (40_alu.md R77). -/
theorem evalF3_eq (alu : Int → Int → Except Cause Int) (m0 m1 m2 : Mode) (m : Mach) :
    evalF3 alu m0 m1 m2 m =
      if m.readable 0 m0 then
        if m.readable 1 m1 then
          match m.target 2 m2 with
          | some d =>
            match alu (m.value 0 m0) (m.value 1 m1) with
            | .ok r => .ok () (((m.growAll (m.f3Cells m0 m1)).memWrite d r).advance 4)
            | .error c => .raised c (m.growAll (m.f3Cells m0 m1))
          | none =>
            .raised (if m2 = .immediate then .addressing else .negativeAddress) (m.growAll (m.f3Cells m0 m1))
        else .raised .negativeAddress (m.growAll (m.readCells 0 m0 ++ [m.litCell 1]))
      else .raised .negativeAddress (m.growAll [m.litCell 0]) := by
  unfold evalF3
  rw [Mach.load_eq]
  cases h0 : m.readable 0 m0 with
  | false => rfl
  | true =>
    simp only [if_true, Eval.bind_ok, Mach.load_eq, Mach.readable_growAll]
    cases h1 : m.readable 1 m1 with
    | false => simp
    | true =>
      simp only [if_true, Eval.bind_ok, Mach.dest_eq, Mach.target_growAll]
      cases h2 : m.target 2 m2 with
      | none => simp [Mach.f3Cells]
      | some d =>
        simp only [Eval.bind_ok, Mach.value_growAll]
        cases h3 : alu (m.value 0 m0) (m.value 1 m1) <;> simp [Mach.f3Cells]

/-- Everything a jump can do (42_control.md R82 to R84). -/
theorem evalJump_eq (taken : Int → Bool) (m0 m1 : Mode) (m : Mach) :
    evalJump taken m0 m1 m =
      if m.readable 0 m0 then
        if taken (m.value 0 m0) then
          if m.readable 1 m1 then
            if m.value 1 m1 < 0 then
              .raised .negativeAddress (m.growAll (m.readCells 0 m0 ++ m.readCells 1 m1))
            else .ok () ((m.growAll (m.readCells 0 m0 ++ m.readCells 1 m1)).jump (m.value 1 m1).toNat)
          else .raised .negativeAddress (m.growAll (m.readCells 0 m0 ++ [m.litCell 1]))
        else .ok () ((m.growAll (m.readCells 0 m0)).advance 3)
      else .raised .negativeAddress (m.growAll [m.litCell 0]) := by
  unfold evalJump
  rw [Mach.load_eq]
  cases h0 : m.readable 0 m0 with
  | false => rfl
  | true =>
    simp only [if_true, Eval.bind_ok]
    cases ht : taken (m.value 0 m0) with
    | false => rfl
    | true =>
      simp only [if_true, Mach.load_eq, Mach.readable_growAll]
      cases h1 : m.readable 1 m1 <;> simp

/-- Everything ARB can do (43_relbase.md R87). -/
theorem evalArb_eq (x : XLen) (m0 : Mode) (m : Mach) :
    evalArb x m0 m =
      if m.readable 0 m0 then
        if isWord x (m.rb + m.value 0 m0) then
          .ok () (((m.growAll (m.readCells 0 m0)).setRb (m.rb + m.value 0 m0)).advance 2)
        else .raised .overflow (m.growAll (m.readCells 0 m0))
      else .raised .negativeAddress (m.growAll [m.litCell 0]) := by
  unfold evalArb
  rw [Mach.load_eq]
  cases h0 : m.readable 0 m0 with
  | false => rfl
  | true =>
    simp only [if_true, Eval.bind_ok, aluAdd, chk_eq, Mach.growAll_rb]
    cases h1 : isWord x (m.rb + m.value 0 m0) <;> simp

/-- Everything IN can do (41_io.md R79): the faults come before the channel is looked at. -/
theorem execIn_eq (m0 : Mode) (s : State) :
    execIn m0 s =
      match s.mach.target 0 m0 with
      | none =>
        s.faultsAfter (if m0 = .immediate then .addressing else .negativeAddress) [s.mach.litCell 0]
      | some d => inputAt d (s.mach.growAll [s.mach.litCell 0]) s := by
  unfold execIn
  rw [Mach.dest_eq]
  cases s.mach.target 0 m0 <;> rfl

/-- Everything OUT can do (41_io.md R80). -/
theorem execOut_eq (m0 : Mode) (s : State) :
    execOut m0 s =
      if s.mach.readable 0 m0 then
        outputOf (s.mach.value 0 m0) (s.mach.growAll (s.mach.readCells 0 m0)) s
      else s.faultsAfter .negativeAddress [s.mach.litCell 0] := by
  unfold execOut
  rw [Mach.load_eq]
  cases s.mach.readable 0 m0 <;> rfl

/-- Where IN has its destination and its channel, it completes, enters the wait, or holds (41_io.md R79). -/
theorem inputAt_eq {s : State} {c : Channel} (h : s.inChannel = some c) (d : Nat) (m : Mach) :
    inputAt d m s =
      match c.pop with
      | none => if m.blk then .fault .inputEmpty else .next (s.withMach (m.setBlk true))
      | some (v, c') =>
        .next ((s.setChannel m.inch c').withMach (((m.memWrite d v).setBlk false).advance 2)) := by
  simp only [inputAt, h]
  all_goals cases c.pop <;> rfl

/-- OUT on a bound port completes (41_io.md R80). -/
theorem outputOf_eq {s : State} {c : Channel} (h : s.outChannel = some c) (v : Int) (m : Mach) :
    outputOf v m s =
      .next ((s.setChannel m.outch (c.push v)).withMach ((m.setOut v).advance 2)) := by
  simp only [outputOf, h]

/-! ### Everything an instruction can do -/

/-- The next states an instruction can answer, said once for all ten: it faults, stores a result, pops into a cell,
enters the wait, pushes, sets `pc`, halts, or sets the base. -/
inductive ExecResult (s : State) : Instr → State → Prop where
  | faulted (i : Instr) (c : Cause) (as : List Nat) (hi : i ≠ .hlt)
      (hc : c = .negativeAddress ∨ (c = .overflow ∧ (i.opcode = 1 ∨ i.opcode = 2 ∨ i.opcode = 9)) ∨
        (c = .addressing ∧ i.wf = false)) :
      ExecResult s i (s.withMach { s.mach with status := .faulted, cause := c, ext := s.mach.extAfter as })
  | stored (i : Instr) (m0 m1 m2 : Mode) (d : Nat) (r : Int) (hi : i.modes = [m0, m1, m2])
      (hd : s.mach.target 2 m2 = some d) (hr : isWord s.cfg.xlen r = true ∨ r = 0 ∨ r = 1) :
      ExecResult s i (s.withMach { s.mach with
        mem := s.mach.mem.write d r
        pc := s.mach.pc + 4
        ext := s.mach.extAfter (s.mach.f3Cells m0 m1 ++ [d]) })
  | popped (m0 : Mode) (d : Nat) (c : Channel) (v : Int) (rest : List Int) (hd : s.mach.target 0 m0 = some d)
      (hc : s.inChannel = some c) (hq : c.q = v :: rest) :
      ExecResult s (.inp m0) ((s.setChannel s.mach.inch { c with q := rest }).withMach { s.mach with
        mem := s.mach.mem.write d v
        ext := s.mach.extAfter [s.mach.litCell 0, d]
        blk := false
        pc := s.mach.pc + 2 })
  | waits (m0 : Mode) (d : Nat) (c : Channel) (hd : s.mach.target 0 m0 = some d) (hc : s.inChannel = some c)
      (hq : c.q = []) (hb : s.mach.blk = false) :
      ExecResult s (.inp m0) (s.withMach { s.mach with blk := true, ext := s.mach.extAfter [s.mach.litCell 0] })
  | pushed (m0 : Mode) (c : Channel) (hr : s.mach.readable 0 m0 = true) (hc : s.outChannel = some c) :
      ExecResult s (.out m0)
        ((s.setChannel s.mach.outch (c.push (s.mach.value 0 m0))).withMach { s.mach with
          out := s.mach.value 0 m0
          outv := true
          ext := s.mach.extAfter (s.mach.readCells 0 m0)
          pc := s.mach.pc + 2 })
  | jumped (i : Instr) (m0 m1 : Mode) (p : Nat) (as : List Nat) (hi : i = .jt m0 m1 ∨ i = .jf m0 m1) :
      ExecResult s i (s.withMach { s.mach with pc := p, ext := s.mach.extAfter as })
  | halted : ExecResult s .hlt (s.withMach { s.mach with status := .halted })
  | based (m0 : Mode) (hr : isWord s.cfg.xlen (s.mach.rb + s.mach.value 0 m0) = true) :
      ExecResult s (.arb m0) (s.withMach { s.mach with
        rb := s.mach.rb + s.mach.value 0 m0
        ext := s.mach.extAfter (s.mach.readCells 0 m0)
        pc := s.mach.pc + 2 })

theorem State.faultsAfter_eq (s : State) (c : Cause) (as : List Nat) :
    s.faultsAfter c as =
      .next (s.withMach { s.mach with status := .faulted, cause := c, ext := s.mach.extAfter as }) := rfl

/-- The end of a format F3 instruction that completes. -/
theorem State.finish_f3 (s : State) (m0 m1 : Mode) (d : Nat) (r : Int) :
    s.finish (.ok () (((s.mach.growAll (s.mach.f3Cells m0 m1)).memWrite d r).advance 4)) = s.f3Stores m0 m1 d r := by
  simp only [State.finish_ok, State.f3Stores, Mach.extAfter_append_single, Mach.memWrite, Mach.grow, Mach.advance,
    Mach.growAll_eq]

theorem evalF3_result {s t : State} {i : Instr} {m0 m1 m2 : Mode} {alu : Int → Int → Except Cause Int}
    (hm : i.modes = [m0, m1, m2]) (hw : i.wf = m2.isDestination)
    (hok : ∀ a b r, alu a b = .ok r → isWord s.cfg.xlen r = true ∨ r = 0 ∨ r = 1)
    (herr : ∀ a b c, alu a b = .error c → c = .overflow ∧ (i.opcode = 1 ∨ i.opcode = 2 ∨ i.opcode = 9))
    (h : s.finish (evalF3 alu m0 m1 m2 s.mach) = .next t) : ExecResult s i t := by
  have hh : i ≠ .hlt := by
    rintro rfl
    cases hm
  rw [evalF3_eq] at h
  split at h
  · split at h
    · split at h
      · rename_i d hd
        split at h
        · rename_i r hr
          rw [State.finish_f3] at h
          cases h
          exact .stored i m0 m1 m2 d r hm hd (hok _ _ _ hr)
        · rename_i c hc
          rw [State.finish_raised_growAll] at h
          cases h
          exact .faulted i c _ hh (.inr (.inl (herr _ _ _ hc)))
      · rw [State.finish_raised_growAll] at h
        cases h
        refine .faulted i _ _ hh ?_
        by_cases hi : m2 = .immediate
        · subst hi
          exact .inr (.inr ⟨rfl, hw⟩)
        · rw [if_neg hi]
          exact .inl rfl
    · rw [State.finish_raised_growAll] at h
      cases h
      exact .faulted i _ _ hh (.inl rfl)
  · rw [State.finish_raised_growAll] at h
    cases h
    exact .faulted i _ _ hh (.inl rfl)

theorem chk_ok {x : XLen} {v r : Int} (h : chk x v = .ok r) : r = v ∧ isWord x r = true := by
  rw [chk_eq] at h
  split at h
  · cases h
    exact ⟨rfl, by assumption⟩
  · cases h

theorem chk_error {x : XLen} {v : Int} {c : Cause} (h : chk x v = .error c) : c = .overflow := by
  rw [chk_eq] at h
  split at h <;> cases h
  rfl

theorem evalJump_result {s t : State} {i : Instr} {m0 m1 : Mode} {taken : Int → Bool}
    (hi : i = .jt m0 m1 ∨ i = .jf m0 m1) (h : s.finish (evalJump taken m0 m1 s.mach) = .next t) :
    ExecResult s i t := by
  have hh : i ≠ .hlt := by rcases hi with rfl | rfl <;> simp
  rw [evalJump_eq] at h
  split at h
  · split at h
    · split at h
      · split at h
        · rw [State.finish_raised_growAll] at h
          cases h
          exact .faulted i _ _ hh (.inl rfl)
        · rw [State.finish_ok, Mach.growAll_eq] at h
          cases h
          exact .jumped i m0 m1 _ _ hi
      · rw [State.finish_raised_growAll] at h
        cases h
        exact .faulted i _ _ hh (.inl rfl)
    · rw [State.finish_ok, Mach.growAll_eq] at h
      cases h
      exact .jumped i m0 m1 _ _ hi
  · rw [State.finish_raised_growAll] at h
    cases h
    exact .faulted i _ _ hh (.inl rfl)

/-- Everything an instruction can do when it answers a next state. -/
theorem exec_next_cases {i : Instr} {s t : State} (h : exec i s = .next t) : ExecResult s i t := by
  cases i with
  | add m0 m1 m2 =>
    exact evalF3_result rfl rfl (fun a b r hr => .inl (chk_ok hr).2) (fun a b c hc => ⟨chk_error hc, .inl rfl⟩) h
  | mul m0 m1 m2 =>
    exact evalF3_result rfl rfl (fun a b r hr => .inl (chk_ok hr).2)
      (fun a b c hc => ⟨chk_error hc, .inr (.inl rfl)⟩) h
  | lt m0 m1 m2 =>
    refine evalF3_result rfl rfl (fun a b r hr => ?_) (fun a b c hc => ?_) h
    · cases hr
      unfold aluLt
      split <;> simp
    · cases hc
  | eq m0 m1 m2 =>
    refine evalF3_result rfl rfl (fun a b r hr => ?_) (fun a b c hc => ?_) h
    · cases hr
      unfold aluEq
      split <;> simp
    · cases hc
  | jt m0 m1 => exact evalJump_result (.inl rfl) h
  | jf m0 m1 => exact evalJump_result (.inr rfl) h
  | hlt =>
    cases h
    exact .halted
  | inp m0 =>
    simp only [exec, execIn_eq] at h
    split at h
    · rename_i hd
      cases h
      refine .faulted _ _ _ (by simp) ?_
      cases m0 with
      | immediate => exact .inr (.inr ⟨rfl, rfl⟩)
      | position => exact .inl rfl
      | relative => exact .inl rfl
    · rename_i d hd
      cases hc : s.inChannel with
      | none => simp [inputAt, hc] at h
      | some c =>
        rw [inputAt_eq hc] at h
        split at h
        · rename_i hp
          split at h
          · cases h
          · rename_i hb
            cases h
            have hq := (Channel.pop_eq_none_iff c).1 hp
            simp only [Mach.growAll_blk, Bool.not_eq_true] at hb
            simpa [Mach.growAll_eq, Mach.setBlk] using ExecResult.waits (s := s) m0 d c hd hc hq hb
        · rename_i v c' hp
          cases h
          have hq := (Channel.pop_eq_some_iff c c' v).1 hp
          simpa [Mach.growAll_eq, Mach.memWrite, Mach.grow, Mach.setBlk, Mach.advance, Mach.extAfter] using
            ExecResult.popped (s := s) m0 d c v c'.q hd hc hq
  | out m0 =>
    simp only [exec, execOut_eq] at h
    split at h
    · rename_i hr
      cases hc : s.outChannel with
      | none => simp [outputOf, hc] at h
      | some c =>
        rw [outputOf_eq hc] at h
        cases h
        simpa [Mach.growAll_eq, Mach.setOut, Mach.advance] using ExecResult.pushed (s := s) m0 c hr hc
    · cases h
      exact .faulted _ _ _ (by simp) (.inl rfl)
  | arb m0 =>
    simp only [exec, execArb, evalArb_eq] at h
    split at h
    · split at h
      · rename_i hr
        rw [State.finish_ok] at h
        cases h
        simpa [Mach.growAll_eq, Mach.setRb, Mach.advance] using ExecResult.based (s := s) m0 hr
      · rw [State.finish_raised_growAll] at h
        cases h
        exact .faulted _ _ _ (by simp) (.inr (.inl ⟨rfl, .inr (.inr rfl)⟩))
    · rw [State.finish_raised_growAll] at h
      cases h
      exact .faulted _ _ _ (by simp) (.inl rfl)

end Sys2Proof.Machine
end

