-- ==== Sys2Proof/Laws/System.lean ====
section
/-! SUPPORT. What the machine's step and the system's step can do, said once, and the places of the machines. -/

namespace Sys2Proof.Machine

open Sys2Proof

/-- A step of the system takes the next event. -/
theorem step_of_schedule_cons {s : State} {e : Event} {rest : List Event} (h : s.schedule = e :: rest) :
    step s = eventStep e { s with schedule := rest } := by
  simp [step, systemStep, h]

/-- The cycle in terms of what the fetch reads (30_encoding.md R64). -/
theorem cycle_eq (s : State) :
    cycle s =
      match decode (s.mach.cell s.mach.pc) with
      | .ok i => exec i (s.withMach (s.mach.grow s.mach.pc))
      | .error e => s.faultsAfter (causeOfDecodeError e) [s.mach.pc] := rfl

/-- The decoder gives well-formed instructions only (30_encoding.md R61). -/
theorem decode_ok_wf {w : Int} {i : Instr} (h : decode w = .ok i) : i.wf = true := by
  have hc : ∀ j : Instr, checkDestination j = .ok i → i.wf = true := by
    intro j hj
    unfold checkDestination at hj
    split at hj
    · cases hj
      assumption
    · cases hj
  unfold decode at h
  split at h
  · cases h
  · unfold decodeNat at h
    split at h
    · unfold decodeOpcode at h
      split at h <;> first | exact hc _ h | cases h
    · cases h

/-- Everything the cycle can do when it answers a next state (30_encoding.md R64): run the decoded instruction, or take
the decoder's fault. -/
theorem cycle_next_cases {s t : State} (h : cycle s = .next t) :
    (∃ i, decode (s.mach.cell s.mach.pc) = .ok i ∧ i.wf = true ∧
        ExecResult (s.withMach (s.mach.grow s.mach.pc)) i t) ∨
      ∃ e, decode (s.mach.cell s.mach.pc) = .error e ∧
        s.faultsAfter (causeOfDecodeError e) [s.mach.pc] = .next t := by
  rw [cycle_eq] at h
  split at h
  · rename_i i hi
    exact .inl ⟨i, hi, decode_ok_wf hi, exec_next_cases h⟩
  · rename_i e he
    exact .inr ⟨e, he, h⟩

/-- Everything the step of a machine can do when it answers a next state: there is a machine, it runs, and it halts at
a boundary or runs its cycle (30_encoding.md R64). -/
theorem machineStep_cases {s t : State} (h : machineStep s = .next t) :
    s.anyMachine = true ∧ s.mach.status = .running ∧
      ((s.mach.blk = false ∧ s.mach.fh = true ∧ t = s.withMach s.mach.halt) ∨
        (s.mach.blk = true ∧ s.inputIsEmpty = false ∧ cycle s = .next t) ∨
        (s.mach.blk = false ∧ s.mach.fh = false ∧ cycle s = .next t)) := by
  unfold machineStep at h
  cases ha : s.anyMachine
  · simp [ha] at h
  rw [ha, if_pos rfl] at h
  cases hs : s.mach.status <;> rw [hs] at h
  · refine ⟨rfl, rfl, ?_⟩
    cases hb : s.mach.blk <;> cases hf : s.mach.fh <;> cases he : s.inputIsEmpty <;>
      simp [hb, hf, he] at h ⊢ <;> first | exact h | exact h.symm
  · simp at h
  · simp at h

/-- What the step of a machine does to the channels: nothing, or one pop at its input port, or one push at its output
port (41_io.md R79, R80). -/
theorem machineStep_chans {s t : State} (h : machineStep s = .next t) :
    t.chans = s.chans ∨
      (∃ c v rest, s.inChannel = some c ∧ c.q = v :: rest ∧
        t.chans = s.chans.set s.mach.inch { c with q := rest }) ∨
      (∃ c v, s.outChannel = some c ∧ t.chans = s.chans.set s.mach.outch (c.push v)) := by
  have key : cycle s = .next t → t.chans = s.chans ∨
      (∃ c v rest, s.inChannel = some c ∧ c.q = v :: rest ∧
        t.chans = s.chans.set s.mach.inch { c with q := rest }) ∨
      (∃ c v, s.outChannel = some c ∧ t.chans = s.chans.set s.mach.outch (c.push v)) := by
    intro h
    rcases cycle_next_cases h with ⟨i, -, -, h⟩ | ⟨e, -, h⟩
    · cases h with
      | popped _ d c v rest hd hc hq => exact .inr (.inl ⟨c, v, rest, hc, hq, rfl⟩)
      | pushed _ c hr hc => exact .inr (.inr ⟨c, _, hc, rfl⟩)
      | _ => exact .inl rfl
    · cases h
      exact .inl rfl
  obtain ⟨-, -, ⟨-, -, rfl⟩ | ⟨-, -, h⟩ | ⟨-, -, h⟩⟩ := machineStep_cases h
  · exact .inl rfl
  · exact key h
  · exact key h

/-- The machines, once one has been spawned. -/
theorem State.machines_eq {s : State} (h : s.anyMachine = true) : s.machines = s.before ++ s.mach :: s.after := by
  simp [State.machines, h]

/-- Before the first spawn there is no machine. -/
theorem State.machines_eq_nil {s : State} (h : s.anyMachine = false) : s.machines = [] := by
  simp [State.machines, h]

/-- Where there is a machine, one has been spawned. -/
theorem State.anyMachine_of_getElem {s : State} {k : Nat} {m : Mach} (h : s.machines[k]? = some m) :
    s.anyMachine = true := by
  cases ha : s.anyMachine with
  | true => rfl
  | false => simp [State.machines_eq_nil ha] at h

/-- The machine in focus is the one its number names. -/
theorem State.machines_self {s : State} (h : s.anyMachine = true) : s.machines[s.self]? = some s.mach := by
  simp [State.machines_eq h, State.self]

/-- Once a machine has been spawned, one is in focus. -/
theorem State.self_lt {s : State} (h : s.anyMachine = true) : s.self < s.machines.length := by
  simp [State.machines_eq h, State.self]

@[simp] theorem State.machines_withMach_length (s : State) (m : Mach) :
    (s.withMach m).machines.length = s.machines.length := by
  cases h : s.anyMachine <;> simp [State.machines, h]

/-- Replacing the machine in focus changes that machine and no other. -/
theorem State.machines_withMach {s : State} (h : s.anyMachine = true) (m : Mach) (k : Nat) :
    (s.withMach m).machines[k]? = if k = s.self then some m else s.machines[k]? := by
  rw [State.machines_eq h, State.machines_eq (s := s.withMach m) h, State.self]
  simp only [State.withMach_before, State.withMach_after, State.withMach_mach]
  by_cases h : k = s.before.length
  · subst h; simp
  · rw [if_neg h]
    rcases Nat.lt_or_ge k s.before.length with h1 | h1
    · rw [List.getElem?_append_left h1, List.getElem?_append_left h1]
    · obtain ⟨j, hj⟩ : ∃ j, k - s.before.length = j + 1 := ⟨k - s.before.length - 1, by omega⟩
      rw [List.getElem?_append_right h1, List.getElem?_append_right h1, hj]
      rfl

/-- Focusing: machine `k` is in focus, and nothing else has changed. -/
theorem State.focus_eq_some {s s' : State} {k : Nat} (h : s.focus k = some s') :
    s.machines[k]? = some s'.mach ∧ s'.machines = s.machines ∧ s'.self = k ∧
      s'.cfg = s.cfg ∧ s'.anyMachine = s.anyMachine ∧ s'.chans = s.chans ∧ s'.schedule = s.schedule ∧
      s'.replies = s.replies := by
  unfold State.focus at h
  split at h
  · exact absurd h (by simp)
  · rename_i m rest hd
    simp only [Option.some.injEq] at h
    subst h
    have hlen : k < s.machines.length := by
      have := congrArg List.length hd
      simp only [List.length_drop, List.length_cons] at this
      omega
    have hget : s.machines[k]? = some m := by
      have := congrArg (·[0]?) hd
      simpa using this
    have ha := State.anyMachine_of_getElem hget
    refine ⟨hget, ?_, ?_, rfl, rfl, rfl, rfl, rfl⟩
    · rw [State.machines_eq (s := { s with mach := m, before := s.machines.take k, after := rest }) ha]
      rw [← hd, List.take_append_drop]
    · show (s.machines.take k).length = k
      rw [List.length_take]
      omega

/-- Focusing succeeds exactly on a machine that has been spawned. -/
theorem State.focus_isSome_iff (s : State) (k : Nat) : (s.focus k).isSome = true ↔ k < s.machines.length := by
  unfold State.focus
  split
  · rename_i hd
    have := congrArg List.length hd
    simp only [List.length_drop, List.length_nil] at this
    simp
    omega
  · rename_i m rest hd
    have := congrArg List.length hd
    simp only [List.length_drop, List.length_cons] at this
    simp
    omega

/-- Changing machine `k` changes that machine and no other. -/
theorem State.machines_modifyMachine (s : State) (k : Nat) (f : Mach → Mach) :
    (s.modifyMachine k f).machines = s.machines.modify k f := by
  cases ha : s.anyMachine
  · have : (s.modifyMachine k f).anyMachine = false := by
      unfold State.modifyMachine
      split
      · exact ha
      · split <;> exact ha
    rw [State.machines_eq_nil this, State.machines_eq_nil ha, List.modify_nil]
  unfold State.modifyMachine State.machines
  split
  · rename_i h
    apply List.ext_getElem?
    intro i
    simp only [List.getElem?_append, List.length_modify, List.getElem?_modify]
    grind
  · split
    · rename_i h1 h2
      subst h2
      apply List.ext_getElem?
      intro i
      simp only [List.getElem?_append, List.getElem?_modify, List.getElem?_cons]
      grind
    · rename_i h1 h2
      apply List.ext_getElem?
      intro i
      simp only [List.getElem?_append, List.getElem?_modify, List.getElem?_cons]
      grind

/-- Changing a machine touches nothing but the machines. -/
theorem State.modifyMachine_rest (s : State) (k : Nat) (f : Mach → Mach) :
    (s.modifyMachine k f).cfg = s.cfg ∧ (s.modifyMachine k f).anyMachine = s.anyMachine ∧
      (s.modifyMachine k f).chans = s.chans ∧ (s.modifyMachine k f).schedule = s.schedule ∧
      (s.modifyMachine k f).replies = s.replies := by
  unfold State.modifyMachine
  split
  · exact ⟨rfl, rfl, rfl, rfl, rfl⟩
  · split <;> exact ⟨rfl, rfl, rfl, rfl, rfl⟩

/-- Reset is spawn of the empty image (70_reset_and_hazards.md R126). -/
theorem State.reset_mach : State.reset.mach = Mach.spawned [] 0 1 := rfl

/-! ### Turns and events -/

/-- Focusing on the machine in focus changes nothing. -/
theorem State.focus_self {s : State} (h : s.anyMachine = true) : s.focus s.self = some s := by
  cases s
  cases h
  simp [State.focus, State.self, State.machines]

/-- A machine has a step only where it is enabled (60_exceptions.md R119). -/
theorem enabled_of_machineStep {s t : State} (h : machineStep s = .next t) : s.enabled = true := by
  obtain ⟨ha, hs, ⟨hb, -, -⟩ | ⟨hb, he, -⟩ | ⟨hb, -, -⟩⟩ := machineStep_cases h <;> simp [State.enabled, *]

/-- The machine in focus is enabled as the one its number names. -/
@[simp] theorem State.machineEnabled_self (s : State) : s.machineEnabled s.self = s.enabled := by
  cases h : s.anyMachine with
  | true => simp [State.machineEnabled, State.focus_self h]
  | false => simp [State.machineEnabled, State.focus, State.machines_eq_nil h, State.enabled, h]

/-- The circle starts at the machine in focus. -/
theorem State.turns_eq_cons {s : State} (h : s.anyMachine = true) : ∃ rest, s.turns = s.self :: rest := by
  have hl := State.self_lt h
  obtain ⟨n, hn⟩ : ∃ n, s.machines.length = n + 1 := ⟨s.machines.length - 1, by omega⟩
  unfold State.turns
  rw [hn] at hl ⊢
  rw [List.range_succ_eq_map, List.map_cons, Nat.add_zero, Nat.mod_eq_of_lt hl]
  exact ⟨_, rfl⟩

/-- When the machine in focus is enabled, it is its turn. -/
theorem State.turn_of_enabled {s : State} (h : s.enabled = true) : s.turn = some s.self := by
  have ha : s.anyMachine = true := by simp_all [State.enabled]
  obtain ⟨rest, hr⟩ := State.turns_eq_cons ha
  simp [State.turn, hr, h]

/-- Only an enabled machine has its turn. -/
theorem State.enabled_of_turn {s : State} {k : Nat} (h : s.turn = some k) : s.machineEnabled k = true :=
  List.find?_some h

/-- Passing the turn changes nothing but the focus. -/
theorem State.sameSystem_passTurn (s : State) : SameSystem s s.passTurn := by
  unfold State.passTurn
  cases h : s.focus ((s.self + 1) % s.machines.length) with
  | none => exact ⟨rfl, rfl, rfl, rfl, rfl, rfl⟩
  | some t =>
    obtain ⟨-, hm, -, hc, ha, hch, hs, hr⟩ := State.focus_eq_some h
    exact ⟨hc.symm, ha.symm, hm.symm, hch.symm, hs.symm, hr.symm⟩

/-- With no event to come and the machine in focus enabled, the step is that machine's, and the turn passes. -/
theorem step_of_enabled {s : State} (hs : s.schedule = []) (he : s.enabled = true) :
    step s = endTurn (machineStep s) := by
  have ha : s.anyMachine = true := by simp_all [State.enabled]
  simp [step, systemStep, hs, State.turn_of_enabled he, eventStep, State.focus_self ha]

/-- With no event to come and no machine enabled, the step is the stop of the machine in focus, if there is one. -/
theorem step_of_turn_eq_none {s : State} (hs : s.schedule = []) (ht : s.turn = none) : step s = machineStep s := by
  simp [step, systemStep, hs, ht]

/-- Everything a step of the system can do when it answers a next state: what happens next happens, and at most the
focus moves on (60_exceptions.md R119). -/
theorem step_next_cases {s t : State} (h : step s = .next t) :
    ∃ e u, s.nextEvent = some e ∧ eventStep e { s with schedule := s.schedule.tail } = .next u ∧ SameSystem u t := by
  cases hsch : s.schedule with
  | cons e rest =>
    rw [step_of_schedule_cons hsch] at h
    exact ⟨e, t, by simp [State.nextEvent, hsch], by simpa using h, ⟨rfl, rfl, rfl, rfl, rfl, rfl⟩⟩
  | nil =>
    cases ht : s.turn with
    | none =>
      rw [step_of_turn_eq_none hsch ht] at h
      rw [State.turn_of_enabled (enabled_of_machineStep h)] at ht
      cases ht
    | some k =>
      have hs : { s with schedule := [] } = s := by rw [← hsch]
      simp only [step, systemStep, hsch, ht] at h
      cases hu : eventStep (.run k) s with
      | next u =>
        rw [hu] at h
        cases h
        exact ⟨.run k, u, by simp [State.nextEvent, hsch, ht], by simpa [hs] using hu, u.sameSystem_passTurn⟩
      | fault f => simp [hu, endTurn] at h
      | refused r => simp [hu, endTurn] at h

end Sys2Proof.Machine
end

