-- ==== Sys2Proof/Laws/HostOps.lean ====
section
/-! SUPPORT. What a host operation can do to the machines and to the channels, said once for all nine
(60_exceptions.md R142). -/

namespace Sys2Proof.Machine

open Sys2Proof

/-- What a host operation does to the channels: nothing, one more channel that is empty, one push of a word, or one pop
(44_channel.md R90, R92 to R94). -/
theorem hostStep_chans {op : HostOp} {s t : State} (h : hostStep op s = .next t) :
    t.chans = s.chans ∨
      (t.chans = s.chans ++ [{ q := [] }] ∧ s.chans.length < s.cfg.wiring.ends.length) ∨
      (∃ (ch : Nat) (c : Channel) (v : Int), s.chans[ch]? = some c ∧ isWord s.cfg.xlen v = true ∧
        t.chans = s.chans.set ch (c.push v)) ∨
      ∃ (ch : Nat) (c : Channel) (v : Int) (rest : List Int), s.chans[ch]? = some c ∧ c.q = v :: rest ∧
        t.chans = s.chans.set ch { c with q := rest } := by
  cases op with
  | createChannel =>
    simp only [hostStep, hostCreateChannel] at h
    split at h
    · rename_i hl
      cases h
      exact .inr (.inl ⟨rfl, hl⟩)
    · cases h
  | spawn image i o =>
    simp only [hostStep, hostSpawn] at h
    split at h
    · split at h
      · split at h
        · cases h
          exact .inl (by simp)
        · cases h
      · cases h
    · cases h
  | push ch v =>
    simp only [hostStep, hostPush] at h
    split at h
    · cases h
    · rename_i c hc
      split at h
      · split at h
        · rename_i hv
          cases h
          exact .inr (.inr (.inl ⟨ch, c, v, hc, hv, rfl⟩))
        · cases h
      · cases h
  | pop ch =>
    simp only [hostStep, hostPop] at h
    split at h
    · cases h
    · rename_i c hc
      split at h
      · split at h
        · cases h
        · rename_i v c' hp
          cases h
          exact .inr (.inr (.inr ⟨ch, c, v, c'.q, hc, (Channel.pop_eq_some_iff c c' v).1 hp, rfl⟩))
      · cases h
  | tryPop ch =>
    simp only [hostStep, hostTryPop] at h
    split at h
    · cases h
    · rename_i c hc
      split at h
      · split at h
        · cases h
          exact .inl rfl
        · rename_i v c' hp
          cases h
          exact .inr (.inr (.inr ⟨ch, c, v, c'.q, hc, (Channel.pop_eq_some_iff c c' v).1 hp, rfl⟩))
      · cases h
  | forceHalt k =>
    simp only [hostStep, hostForceHalt] at h
    split at h
    · cases h
      exact .inl (State.modifyMachine_rest _ _ _).2.2.1
    · cases h
  | wait k =>
    simp only [hostStep, hostWait] at h
    split at h
    · cases h
    · split at h
      · cases h
      · cases h
        exact .inl rfl
  | lastOutput k =>
    simp only [hostStep, hostLastOutput] at h
    split at h
    · cases h
    · cases h
      exact .inl rfl
  | dump k =>
    simp only [hostStep, hostDump] at h
    split at h
    · cases h
    · split at h
      · cases h
      · cases h
        exact .inl rfl

/-- A machine added in a system where a reply is then recorded is still the last. -/
@[simp] theorem State.machines_reply (s : State) (r : Reply) : (s.reply r).machines = s.machines := rfl

/-- Changing a machine keeps the focus where it is. -/
theorem State.modifyMachine_self (s : State) (k : Nat) (f : Mach → Mach) :
    (s.modifyMachine k f).self = s.self := by
  unfold State.modifyMachine State.self
  split
  · simp
  · split <;> rfl

/-- What a host operation does to the machines: nothing, one more machine just spawned, or the force-halt flag of one
(70_reset_and_hazards.md R126, 60_exceptions.md R112). The parameters and the rest of the schedule stay, and where there
was a machine, the focus. -/
theorem hostStep_machines {op : HostOp} {s t : State} (h : hostStep op s = .next t) :
    t.cfg = s.cfg ∧ t.schedule = s.schedule ∧ (s.anyMachine = true → t.self = s.self ∧ t.anyMachine = true) ∧
      (t.machines = s.machines ∨
        (∃ image i o, image.all (isWord s.cfg.xlen) = true ∧ (i < s.chans.length ∧ o < s.chans.length) ∧
          s.bindingAgrees i o = true ∧ t.machines = s.machines ++ [Mach.spawned image i o] ∧ t.chans = s.chans) ∨
        ∃ k, t.machines = s.machines.modify k Mach.forceHalt ∧ t.chans = s.chans) := by
  cases op with
  | createChannel =>
    simp only [hostStep, hostCreateChannel] at h
    split at h
    · cases h
      exact ⟨rfl, rfl, fun ha => ⟨rfl, ha⟩, .inl rfl⟩
    · cases h
  | spawn image i o =>
    simp only [hostStep, hostSpawn] at h
    split at h
    · rename_i h1
      split at h
      · rename_i h2
        split at h
        · rename_i h3
          cases h
          rw [Bool.and_eq_true] at h3
          exact ⟨by simp, by simp, fun ha => ⟨(State.addMachine_later ha _).2, by simp⟩,
            .inr (.inl ⟨image, i, o, h1, h2, h3.2, by simp, by simp⟩)⟩
        · cases h
      · cases h
    · cases h
  | push ch v =>
    simp only [hostStep, hostPush] at h
    split at h
    · cases h
    · split at h
      · split at h
        · cases h
          exact ⟨rfl, rfl, fun ha => ⟨rfl, ha⟩, .inl rfl⟩
        · cases h
      · cases h
  | pop ch =>
    simp only [hostStep, hostPop] at h
    split at h
    · cases h
    · split at h
      · split at h
        · cases h
        · cases h
          exact ⟨rfl, rfl, fun ha => ⟨rfl, ha⟩, .inl rfl⟩
      · cases h
  | tryPop ch =>
    simp only [hostStep, hostTryPop] at h
    split at h
    · cases h
    · split at h
      · split at h
        · cases h
          exact ⟨rfl, rfl, fun ha => ⟨rfl, ha⟩, .inl rfl⟩
        · cases h
          exact ⟨rfl, rfl, fun ha => ⟨rfl, ha⟩, .inl rfl⟩
      · cases h
  | forceHalt k =>
    simp only [hostStep, hostForceHalt] at h
    split at h
    · cases h
      obtain ⟨hcfg, hany, hchans, hsched, -⟩ := State.modifyMachine_rest s k Mach.forceHalt
      exact ⟨hcfg, hsched, fun ha => ⟨State.modifyMachine_self s k _, by rw [hany, ha]⟩,
        .inr (.inr ⟨k, State.machines_modifyMachine s k _, hchans⟩)⟩
    · cases h
  | wait k =>
    simp only [hostStep, hostWait] at h
    split at h
    · cases h
    · split at h
      · cases h
      · cases h
        exact ⟨rfl, rfl, fun ha => ⟨rfl, ha⟩, .inl rfl⟩
  | lastOutput k =>
    simp only [hostStep, hostLastOutput] at h
    split at h
    · cases h
    · cases h
      exact ⟨rfl, rfl, fun ha => ⟨rfl, ha⟩, .inl rfl⟩
  | dump k =>
    simp only [hostStep, hostDump] at h
    split at h
    · cases h
    · split at h
      · cases h
      · cases h
        exact ⟨rfl, rfl, fun ha => ⟨rfl, ha⟩, .inl rfl⟩

end Sys2Proof.Machine
end

