-- ==== Sys2Proof/Laws/PerInstr.lean ====
section
/-! SUPPORT. The family EncodeRange, about every instruction as syntax: the word the assembler makes for it is not
negative, has no digit above position 4, and has the instruction's opcode in its two lowest digits (30_encoding.md R50,
R68). -/

namespace Sys2Proof.Laws.EncodeRange

open Sys2Proof

/-- The word of an instruction lies in `0 .. 99999` and its opcode is the word `mod 100` (30_encoding.md R50, R68). -/
def Statement (i : Instr) : Prop :=
  0 ≤ encode i ∧ encode i < 100000 ∧ encode i % 100 = i.opcode

theorem add (m0 m1 m2 : Mode) : Statement (.add m0 m1 m2) := by
  unfold Statement
  cases m0 <;> cases m1 <;> cases m2 <;> decide

theorem mul (m0 m1 m2 : Mode) : Statement (.mul m0 m1 m2) := by
  unfold Statement
  cases m0 <;> cases m1 <;> cases m2 <;> decide

theorem inp (m0 : Mode) : Statement (.inp m0) := by
  unfold Statement
  cases m0 <;> decide

theorem out (m0 : Mode) : Statement (.out m0) := by
  unfold Statement
  cases m0 <;> decide

theorem jt (m0 m1 : Mode) : Statement (.jt m0 m1) := by
  unfold Statement
  cases m0 <;> cases m1 <;> decide

theorem jf (m0 m1 : Mode) : Statement (.jf m0 m1) := by
  unfold Statement
  cases m0 <;> cases m1 <;> decide

theorem lt (m0 m1 m2 : Mode) : Statement (.lt m0 m1 m2) := by
  unfold Statement
  cases m0 <;> cases m1 <;> cases m2 <;> decide

theorem eq (m0 m1 m2 : Mode) : Statement (.eq m0 m1 m2) := by
  unfold Statement
  cases m0 <;> cases m1 <;> cases m2 <;> decide

theorem arb (m0 : Mode) : Statement (.arb m0) := by
  unfold Statement
  cases m0 <;> decide

theorem hlt : Statement .hlt := by
  unfold Statement
  decide

end Sys2Proof.Laws.EncodeRange
end

