-- ==== Sys2Proof/Tests/Slice0.lean ====
section
/-! SUPPORT. The model's own tests. Expected results come from the spec: the worked vectors of 95_test_vectors.md, each
named in the test's comment, or the rule it cites. After them, for every statement with hypotheses, a witness that
meets them. -/

namespace Sys2Proof.Tests.Slice0

open Sys2Proof Sys2Proof.Machine

/-! ### Helpers -/

/-- The next state of an outcome. -/
def nextOf : Host.Outcome State Fault Refusal → Option State
  | .next t => some t
  | .fault _ => none
  | .refused _ => none

/-- The stop of an outcome. -/
def faultOf : Host.Outcome State Fault Refusal → Option Fault
  | .next _ => none
  | .fault f => some f
  | .refused _ => none

/-- The refusal of an outcome. -/
def refusalOf : Host.Outcome State Fault Refusal → Option Refusal
  | .next _ => none
  | .fault _ => none
  | .refused r => some r

/-- A machine just spawned with an image. -/
def load (image : List Int) : Mach := Mach.spawned image 0 1

/-- One machine alone, its input channel holding `q`. -/
def alone (m : Mach) (q : List Int) : State :=
  { State.reset with
    mach := m
    chans := [{ q := q }, { q := [] }] }

/-- What the vectors list of a machine after a step: memory `0 .. ext-1`, `pc`, status, cause. -/
def seen (o : Host.Outcome State Fault Refusal) : Option (List Int × Nat × Status × Cause) :=
  (nextOf o).map fun t => (t.mach.cells, t.mach.pc, t.mach.status, t.mach.cause)

/-- The same with `rb`. -/
def seenRb (o : Host.Outcome State Fault Refusal) : Option (Int × Nat × Status × Cause) :=
  (nextOf o).map fun t => (t.mach.rb, t.mach.pc, t.mach.status, t.mach.cause)

/-- The queues of the channels after a step. -/
def queues (o : Host.Outcome State Fault Refusal) : Option (List (List Int)) :=
  (nextOf o).map fun t => t.chans.map fun c => c.q

/-- Two steps of the system. -/
def twoSteps (s : State) : Host.Outcome State Fault Refusal :=
  match step s with
  | .next t => step t
  | .fault f => .fault f
  | .refused r => .refused r

/-- `WMAX` of XLEN = 64 (00_scope.md R2). -/
def wMax : Int := 9223372036854775807

/-- `WMIN` of XLEN = 64 (00_scope.md R2). -/
def wMin : Int := -9223372036854775808

/-! ### Well-formedness: one ill-formed term for each destination, refused -/

theorem test_wf_add_destination : (Instr.add .position .position .immediate).wf = false := by decide
theorem test_wf_mul_destination : (Instr.mul .position .position .immediate).wf = false := by decide
theorem test_wf_in_destination : (Instr.inp .immediate).wf = false := by decide
theorem test_wf_lt_destination : (Instr.lt .position .position .immediate).wf = false := by decide
theorem test_wf_eq_destination : (Instr.eq .position .position .immediate).wf = false := by decide

/-- An Immediate source is no fault (30_encoding.md R57). -/
theorem test_wf_sources : (Instr.jt .immediate .immediate).wf = true ∧ (Instr.out .immediate).wf = true := by decide

/-! ### Decode: words written out digit by digit from 30_encoding.md (95_test_vectors.md section 2) -/

theorem test_decode_add : decode 22201 = .ok (.add .relative .relative .relative) := by decide
theorem test_decode_mul : decode 1002 = .ok (.mul .position .immediate .position) := by decide
theorem test_decode_in : decode 10003 = .ok (.inp .position) := by decide
theorem test_decode_out : decode 204 = .ok (.out .relative) := by decide
theorem test_decode_jt : decode 1205 = .ok (.jt .relative .immediate) := by decide
theorem test_decode_jf : decode 1006 = .ok (.jf .position .immediate) := by decide
theorem test_decode_lt : decode 21107 = .ok (.lt .immediate .immediate .relative) := by decide
theorem test_decode_eq : decode 1008 = .ok (.eq .position .immediate .position) := by decide
theorem test_decode_arb : decode 109 = .ok (.arb .immediate) := by decide
theorem test_decode_hlt : decode 1200099 = .ok .hlt := by decide

/-- The order of the checks (30_encoding.md R62): a bad mode digit before an unknown opcode and before the destination.
-/
theorem test_decode_order :
    decode 398 = .error .badModeDigit ∧ decode 10301 = .error .badModeDigit ∧
      decode 10098 = .error .unknownOpcode := by decide

/-- The two ends of the word range. -/
theorem test_decode_extremes : decode wMin = .error .negativeWord ∧ decode wMax = .error .badModeDigit := by decide

/-- The assembler (30_encoding.md R68): `ADD #3, #4, [rb+2]`, vector A6. -/
theorem test_assemble : asmF3 .add (.imm 3) (.imm 4) (.rel 2) = [21101, 3, 4, 2] := by decide

/-- `JT [4], [5]`, vector J4; `OUT [rb-1]`, vector T3; `HLT`. -/
theorem test_assemble_short :
    asmF2 .jt (.pos 4) (.pos 5) = [5, 4, 5] ∧ asmF1 .out (.rel (-1)) = [204, -1] ∧ asmF0 .hlt = [99] := by decide

/-- The bits of a word as the opcode table numbers them: cell 0 in bits 63..0, two's complement. -/
theorem test_cell_of_bits : cellOfBits (2 ^ 64 - 1 + 2 ^ 64 * 7) 0 = -1 ∧ cellOfBits (2 ^ 64 * 7) 1 = 7 := by decide

theorem test_decode_table_word :
    decodeTableWord 64 21101 = some (.add .immediate .immediate .relative) ∧ decodeTableWord 64 10001 = none := by
  decide

/-! ### ADD, MUL, LT, EQ (95_test_vectors.md section 4) -/

/-- Vector A6: a Relative destination beyond the extent. -/
theorem test_add_grows :
    seen (step (alone { load [21101, 3, 4, 2] with rb := 10 } [])) =
      some ([21101, 3, 4, 2, 0, 0, 0, 0, 0, 0, 0, 0, 7], 4, .running, .none) := by decide

/-- Vector A9: overflow writes nothing. -/
theorem test_add_overflow :
    seen (step (alone (load [1101, wMax, 1, 0]) [])) =
      some ([1101, wMax, 1, 0], 0, .faulted, .overflow) := by decide

/-- Vector M11: the most negative word is a product. -/
theorem test_mul_most_negative :
    seen (step (alone (load [1102, -4294967296, 2147483648, 5]) [])) =
      some ([1102, -4294967296, 2147483648, 5, 0, wMin], 4, .running, .none) := by decide

/-- Vector M7: its negation is not. -/
theorem test_mul_overflow :
    seen (step (alone (load [1102, wMin, -1, 5]) [])) =
      some ([1102, wMin, -1, 5], 0, .faulted, .overflow) := by decide

/-- Vector L7: signed, and no subtraction that could overflow. -/
theorem test_lt_signed :
    seen (step (alone (load [1107, wMin, wMax, 5]) [])) =
      some ([1107, wMin, wMax, 5, 0, 1], 4, .running, .none) := by decide

/-- Vector L2: strict. -/
theorem test_lt_strict :
    seen (step (alone (load [1107, 8, 8, 5]) [])) =
      some ([1107, 8, 8, 5, 0, 0], 4, .running, .none) := by decide

/-- Vector E9: two cells beyond the extent are equal, and reading them grows it. -/
theorem test_eq_beyond :
    seen (step (alone (load [8, 6, 7, 0]) [])) =
      some ([1, 6, 7, 0, 0, 0, 0, 0], 4, .running, .none) := by decide

/-- Vector E4. -/
theorem test_eq_differs :
    seen (step (alone (load [1108, -5, 5, 5]) [])) =
      some ([1108, -5, 5, 5, 0, 0], 4, .running, .none) := by decide

/-! ### IN, OUT (95_test_vectors.md section 5) -/

/-- Vector I2: the oldest word, and the write grows memory. -/
theorem test_in_pops :
    seen (step (alone (load [3, 5]) [7, 8, 9])) = some ([3, 5, 0, 0, 0, 7], 2, .running, .none) ∧
      queues (step (alone (load [3, 5]) [7, 8, 9])) = some [[8, 9], []] := by decide

/-- Vector I7: entering the wait sets `blk` only. -/
theorem test_in_waits :
    (nextOf (step (alone (load [3, 50]) []))).map (fun t => (t.mach.blk, t.mach.cells, t.mach.pc)) =
      some (true, [3, 50], 0) := by decide

/-- Vector T3: a Relative operand. -/
theorem test_out_pushes :
    queues (step (alone { load [204, -1, 0, 0, 0, 0, 55] with rb := 7 } [])) = some [[], [55]] ∧
      (nextOf (step (alone { load [204, -1, 0, 0, 0, 0, 55] with rb := 7 } []))).map
        (fun t => t.mach.lastOutput) = some (some 55) := by decide

/-- Vector T6: a fault pushes nothing. -/
theorem test_out_fault :
    seen (step (alone (load [4, -1, 99]) [])) = some ([4, -1, 99], 0, .faulted, .negativeAddress) ∧
      queues (step (alone (load [4, -1, 99]) [])) = some [[], []] := by decide

/-! ### JT, JF, HLT, ARB (95_test_vectors.md section 6) -/

/-- Vector J5: Relative condition and target. -/
theorem test_jt_taken :
    seen (step (alone { load [2205, 1, 2, 0, 1, 6, 0] with rb := 3 } [])) =
      some ([2205, 1, 2, 0, 1, 6, 0], 6, .running, .none) := by decide

/-- Vector J6: not taken, and the target literal is not even read. -/
theorem test_jt_not_taken :
    seen (step (alone (load [1105, 0]) [])) = some ([1105, 0], 3, .running, .none) := by decide

/-- Vector K4: the condition read beyond the extent is zero. -/
theorem test_jf_taken :
    seen (step (alone (load [1006, 9, 7]) [])) =
      some ([1006, 9, 7, 0, 0, 0, 0, 0, 0, 0], 7, .running, .none) := by decide

/-- Vector K5: a negative target faults in the jump. -/
theorem test_jf_negative :
    seen (step (alone (load [1106, 0, -1]) [])) = some ([1106, 0, -1], 0, .faulted, .negativeAddress) := by decide

/-- Vector H2: the mode digits of HLT are ignored, and `pc` stays. -/
theorem test_hlt : seen (step (alone (load [1199]) [])) = some ([1199], 0, .halted, .none) := by decide

/-- Vector H4: the empty image is a DecodeFault at address 0. -/
theorem test_empty_image : seen (step State.reset) = some ([0], 0, .faulted, .decode) := by decide

/-- Vector B4: the operand is read with the old base. -/
theorem test_arb_old_base :
    seenRb (step (alone { load [209, 1, 0, 0, 0, 0, 100] with rb := 5 } [])) = some (105, 2, .running, .none) := by
  decide

/-- Vector B7: overflow below, and the base keeps its value. -/
theorem test_arb_overflow :
    seenRb (step (alone { load [109, -1] with rb := wMin } [])) = some (wMin, 0, .faulted, .overflow) := by decide

/-! ### Operands and memory (95_test_vectors.md section 3) -/

/-- Vector O14: the address adder is exact. -/
theorem test_address_exact :
    ({ load [204, wMax] with rb := wMax } : Mach).readCells 0 .relative = [1, 18446744073709551614] := by decide

/-- Vector O12: a negative base is no fault, a negative sum is. -/
theorem test_address_negative :
    ({ load [204, 2] with rb := -3 } : Mach).readable 0 .relative = false ∧
      ({ load [204, 3] with rb := -3 } : Mach).readable 0 .relative = true := by decide

/-- The canonical form: writing `0` removes the entry, an image lists no `0`. -/
theorem test_memory_canonical :
    (load [7, 0, 9]).mem = [(0, 7), (2, 9)] ∧ (load [7, 0, 9]).mem.write 2 0 = [(0, 7)] ∧
      (load [7, 0, 9]).mem.write 1 8 = [(0, 7), (1, 8), (2, 9)] ∧
      Memory.wf [(0, 7), (0, 8)] = false ∧ Memory.wf [(1, 0)] = false := by decide

/-! ### Placing an instruction -/

/-- `ADD #5, #-8, [6]` (vector A2) laid out in bits and placed after reset. -/
theorem test_with_fetch_word :
    seen (step (State.reset.withFetchWord 256
      (1101 + 2 ^ 64 * 5 + 2 ^ 128 * (2 ^ 64 - 8) + 2 ^ 192 * 6))) =
        some ([1101, 5, -8, 6, 0, 0, -3], 4, .running, .none) := by decide

/-- Before the first spawn, placing an instruction places a machine for it. -/
theorem test_with_fetch_word_boot :
    seen (step ((State.boot Config.ofSpec).withFetchWord 64 99)) = some ([99, 0, 0, 0], 0, .halted, .none) := by decide

/-- The bits above `nbits` are zero. -/
theorem test_with_fetch_word_short :
    (State.reset.withFetchWord 64 (99 + 2 ^ 64 * 5)).mach.mem = [(0, 99)] := by decide

/-! ### Several machines, channels, the host -/

/-- One machine with the host on both ends. -/
def oneLoop : Wiring :=
  { ends := [{ producer := .host, consumer := .machine 0 }, { producer := .machine 0, consumer := .host }]
    ports := [{ inch := 0, outch := 1 }] }

/-- Two machines in the wiring of reset: machine 0 is to run `OUT #7; HLT`, machine 1 `IN [0]`, with a word to pop. -/
def pair : State :=
  { cfg := Config.ofSpec
    anyMachine := true
    mach := Mach.spawned [104, 7, 99] 0 1
    before := []
    after := [Mach.spawned [3, 0] 2 3]
    chans := [{ q := [] }, { q := [] }, { q := [5] }, { q := [] }]
    schedule := []
    replies := [] }

/-- A machine inside the wait of IN on an empty channel, alone: a deadlock (60_exceptions.md R122). -/
def stuck : State := alone { load [3, 0] with blk := true } []

/-- `pair` with a schedule. -/
def pairWith (events : List Event) : State := { pair with schedule := events }

/-- A stopped machine that has emitted `-9`. -/
def ended : Mach := { load [4, 2, -9] with status := .halted, out := -9, outv := true }

/-- Any schedule of the two machines gives the same channels (60_exceptions.md R119). -/
theorem test_schedule_orders :
    queues (twoSteps (pairWith [.run 0, .run 1])) = some [[], [7], [], []] ∧
      queues (twoSteps (pairWith [.run 1, .run 0])) = some [[], [7], [], []] := by decide

/-- The machine named by the schedule steps, not the one in focus. -/
theorem test_schedule_focus :
    (nextOf (step (pairWith [.run 1]))).map (fun t => (t.self, t.mach.cell 0)) = some (1, 5) := by decide

/-- The host pushes and the waiting machine goes on: the two-step vector of 95_test_vectors.md section 5. -/
theorem test_wait_completes :
    seen (twoSteps { alone { load [3, 5] with blk := true } [] with
      schedule := [.host (.push 0 7), .run 0] }) = some ([3, 5, 0, 0, 0, 7], 2, .running, .none) := by decide

/-- When no event is to come the machines step in turn, from the one in focus on (60_exceptions.md R119). -/
theorem test_machines_take_turns :
    queues (twoSteps pair) = some [[], [7], [], []] ∧
      (nextOf (twoSteps pair)).map (fun t => t.machines.map fun m => m.pc) = some [2, 2] ∧
      (nextOf (step pair)).map State.self = some 1 := by decide

/-- Two machines, the one in focus inside the wait of IN on an empty channel. -/
def skipping : State :=
  { pair with mach := { load [3, 0] with blk := true }, after := [Mach.spawned [104, 7] 2 3] }

/-- A machine that holds in IN does not keep the turn from the other. -/
theorem test_turn_skips_a_waiting_machine :
    queues (step skipping) = some [[], [], [5], [7]] := by decide

/-- The first of two machines has been spawned, and the four channels exist, a word waiting for the second. -/
def wired : State :=
  { State.reset with
    chans := [{ q := [] }, { q := [] }, { q := [3] }, { q := [] }] }

/-- `wired` in a wiring of its own. -/
def wiredAs (w : Wiring) : State := { wired with cfg := { wired.cfg with wiring := w } }

/-- Two machines that consume from the same channel. -/
def twoConsumers : Wiring :=
  { Wiring.twoLoops with ports := [{ inch := 0, outch := 1 }, { inch := 0, outch := 3 }] }

/-- `spawn` (70_reset_and_hazards.md R126): the handle is the machine's number, the image is its memory. -/
theorem test_spawn :
    (nextOf (hostStep (.spawn [99, 0, 4] 2 3) wired)).map (fun t => t.replies) = some [.handle 1] ∧
      (nextOf (hostStep (.spawn [99, 0, 4] 2 3) wired)).map (fun t => t.after.map (fun m => (m.cells, m.pc))) =
        some [([99, 0, 4], 0)] := by decide

/-- `spawn` touches no channel (70_reset_and_hazards.md R128). -/
theorem test_spawn_channels : queues (hostStep (.spawn [99] 2 3) wired) = some [[], [], [3], []] := by decide

/-- The wiring gives each machine its ends for good (44_channel.md R91): a machine is not spawned twice, not even when
it has stopped, and none is spawned on ends the wiring does not give it. -/
theorem test_spawn_again :
    refusalOf (hostStep (.spawn [99] 0 1) wired) = some .wiringBroken ∧
      refusalOf (hostStep (.spawn [99] 0 1) (alone ended [8])) = some .wiringBroken ∧
      refusalOf (hostStep (.spawn [99] 0 3) wired) = some .wiringBroken ∧
      refusalOf (hostStep (.spawn [99] 3 2) wired) = some .wiringBroken := by decide

/-- A channel with two consumers or two producers, or with an end that no machine of the wiring has, is no wiring
(00_scope.md R7). -/
theorem test_wiring :
    wiringOk oneLoop = true ∧ wiringOk Wiring.twoLoops = true ∧ wiringOk twoConsumers = false ∧
      wiringOk { Wiring.twoLoops with ports := [{ inch := 0, outch := 1 }, { inch := 2, outch := 1 }] } = false ∧
      wiringOk { Wiring.twoLoops with ports := [{ inch := 0, outch := 1 }] } = false ∧
      wiringOk { ends := [], ports := [] } = false ∧
      refusalOf (hostStep (.spawn [99] 2 3) (wiredAs twoConsumers)) = some .wiringBroken := by decide

/-- One machine on both ends of one channel, and a ring of two machines, are wirings (60_exceptions.md R117). -/
theorem test_wiring_rings :
    wiringOk
        { ends := [{ producer := .machine 0, consumer := .machine 0 }], ports := [{ inch := 0, outch := 0 }] } = true ∧
      wiringOk
        { ends := [{ producer := .machine 1, consumer := .machine 0 }, { producer := .machine 0, consumer := .machine 1 }]
          ports := [{ inch := 0, outch := 1 }, { inch := 1, outch := 0 }] } = true := by decide

/-- One machine from nothing, in the order of 70_reset_and_hazards.md R130: the channels, the seed, the spawn, its first
step, which finds the seed. -/
theorem test_from_boot :
    queues (runEvents [.host .createChannel, .host .createChannel, .host (.push 0 5)]
        (State.boot { Config.ofSpec with wiring := oneLoop })) = some [[5], []] ∧
      seen (runEvents [.host .createChannel, .host .createChannel, .host (.push 0 5), .host (.spawn [3, 0, 99] 0 1),
        .run 0] (State.boot { Config.ofSpec with wiring := oneLoop })) = some ([5, 0, 99], 2, .running, .none) := by decide

/-- The machines may be spawned in any order (70_reset_and_hazards.md R130): machine 1 of the wiring first, whose
handle is then 0, and after it machine 0. -/
theorem test_spawn_order :
    (nextOf (runEvents [.host .createChannel, .host .createChannel, .host .createChannel, .host .createChannel,
        .host (.spawn [99] 2 3), .host (.spawn [104, 7] 0 1)] (State.boot Config.ofSpec))).map
      (fun t => (t.machines.map (fun m => (m.cells, m.inch)), t.self)) =
        some ([([99], 2), ([104, 7], 0)], 0) := by decide

/-- From the reset state the host creates the channels of the other machine, spawns it and runs it (60_exceptions.md
R142). -/
theorem test_spawn_from_reset :
    queues (runEvents [.host .createChannel, .host .createChannel, .host (.spawn [104, 7, 99] 2 3), .run 1]
      State.reset) = some [[], [], [], [7]] := by decide

/-- Before the first spawn there is no machine to step, to wait for or to spawn on channels that do not exist. -/
theorem test_no_machine :
    faultOf (step (State.boot Config.ofSpec)) = some .noMachine ∧
      refusalOf (eventStep (.run 0) (State.boot Config.ofSpec)) = some .noSuchMachine ∧
      refusalOf (hostStep (.wait 0) (State.boot Config.ofSpec)) = some .noSuchMachine ∧
      refusalOf (hostStep (.spawn [99] 0 1) (State.boot Config.ofSpec)) = some .noSuchChannel := by decide

/-- Channels are created along the wiring, and no further (44_channel.md R90, 00_scope.md R7). -/
theorem test_create_channel :
    queues (hostStep .createChannel { wired with chans := [{ q := [6] }] }) = some [[6], []] ∧
      refusalOf (hostStep .createChannel wired) = some .beyondTheWiring := by decide

/-- A pipeline of two machines, all channels created: the host feeds channel 0, channel 1 leads from machine 0 to
machine 1, channel 2 to the host. -/
def pipeline : State :=
  { State.boot { Config.ofSpec with wiring :=
      { ends := [{ producer := .host, consumer := .machine 0 }, { producer := .machine 0, consumer := .machine 1 },
                 { producer := .machine 1, consumer := .host }]
        ports := [{ inch := 0, outch := 1 }, { inch := 1, outch := 2 }] } } with
    chans := [{ q := [] }, { q := [] }, { q := [] }] }

/-- The host pushes where it owns the producer end, and seeds the input of a machine that another machine feeds
(44_channel.md R99); a channel from a machine to the host is not its to push on (R98). -/
theorem test_push_ends :
    wiringOk pipeline.cfg.wiring = true ∧
      queues (hostStep (.push 0 6) pipeline) = some [[6], [], []] ∧
      queues (hostStep (.push 1 6) pipeline) = some [[], [6], []] ∧
      refusalOf (hostStep (.push 2 6) pipeline) = some .notTheHostsEnd ∧
      refusalOf (hostStep (.push 1 6) State.reset) = some .notTheHostsEnd := by decide

/-- `try_pop` on an empty channel and on one that holds `4, -9` (95_test_vectors.md section 7). -/
theorem test_try_pop :
    (nextOf (hostStep (.tryPop 1) pair)).map (fun t => t.replies) = some [.empty] ∧
      queues (hostStep (.tryPop 1) ((alone (load [99]) []).setChannel 1 { q := [4, -9] })) = some [[], [-9]] ∧
      refusalOf (hostStep (.tryPop 0) pair) = some .notTheHostsEnd := by decide

/-- `dump` (20_memory.md R47) and `last_output` (60_exceptions.md R121) of a stopped machine. -/
theorem test_read_back :
    (nextOf (hostStep (.dump 0) (alone ended []))).map (fun t => t.replies) = some [.memory 3 [4, 2, -9]] ∧
      (nextOf (hostStep (.lastOutput 0) (alone ended []))).map (fun t => t.replies) =
        some [.lastOutput (some (-9))] := by decide

/-- `force_halt` then a step at a boundary (60_exceptions.md R112, R113): the fetch does not happen. -/
theorem test_force_halt :
    seen (twoSteps { alone (load [104, 42, 99]) [] with schedule := [.host (.forceHalt 0), .run 0] }) =
      some ([104, 42, 99], 0, .halted, .none) := by decide

/-! ### Witnesses: for each statement with hypotheses, a state and operands that meet them, one per clause -/

/-- Parameters under which a system that holds nothing yet meets the invariant: those of reset, and one machine with
unbounded words. -/
theorem witness_ResetMeetsTheInvariant :
    (XLenOk Config.ofSpec.xlen ∧ wiringOk Config.ofSpec.wiring = true) ∧
      XLenOk .infinite ∧ wiringOk oneLoop = true := ⟨⟨⟨by decide, by decide⟩, by decide⟩, ⟨rfl, rfl⟩, by decide⟩

/-- Encoding, decoding: a well-formed instruction; a word for each check; a word with a digit above position 4. -/
theorem witness_DecodeEncodeRoundTrip : (Instr.add .relative .immediate .relative).wf = true := by decide

theorem witness_DecoderChecksInOrder :
    (-1 : Int) < 0 ∧ 2 < digit 301 2 ∧ 2 < digit 3001 3 ∧ 2 < digit 30001 4 ∧
      digit 22298 2 ≤ 2 ∧ digit 22298 3 ≤ 2 ∧ digit 22298 4 ≤ 2 ∧
      22298 % 100 ∉ [1, 2, 3, 4, 5, 6, 7, 8, 9, 99] ∧
      10001 % 100 ∈ [1, 2, 7, 8] ∧ digit 10001 4 = 1 ∧ 103 % 100 = 3 ∧ digit 103 2 = 1 ∧
      22201 % 100 ∈ [1, 2, 7, 8] ∧ digit 22201 4 ≠ 1 := by decide

theorem witness_DecodeIgnoresHighDigits : (0 : Int) ≤ 1200099 := by decide

/-- The first cell beyond the extent, memory being zero there. -/
theorem witness_MemReadGrowsAndReturns :
    (∀ b, (load [7, 0, 9]).ext ≤ b → (load [7, 0, 9]).cell b = 0) ∧ (load [7, 0, 9]).ext ≤ 3 :=
  ⟨fun _ hb => Memory.read_beyond (by decide) hb, by decide⟩

/-- Memory: canonical, with the zero beyond the extent. -/
theorem witness_MemWriteStoresOneCell :
    (load [7, 0, 9]).mem.wf = true ∧ ∀ b, (load [7, 0, 9]).ext ≤ b → (load [7, 0, 9]).cell b = 0 :=
  ⟨by decide, fun _ hb => Memory.read_beyond (by decide) hb⟩

/-- A literal at each side of zero, for Position and for Relative. -/
theorem witness_LoadFollowsTheMode :
    (load [4, -1]).cell 1 < 0 ∧ 0 ≤ (load [4, 0]).cell 1 ∧
      ({ load [204, 2] with rb := -3 } : Mach).rb + (load [204, 2]).cell 1 < 0 ∧
      0 ≤ ({ load [204, 3] with rb := -3 } : Mach).rb + (load [204, 3]).cell 1 := by decide

theorem witness_DestFollowsTheMode :
    (load [3, -1]).cell 1 < 0 ∧ 0 ≤ (load [3, 0]).cell 1 ∧
      ({ load [203, 2] with rb := -3 } : Mach).rb + (load [203, 2]).cell 1 < 0 ∧
      0 ≤ ({ load [203, 3] with rb := -3 } : Mach).rb + (load [203, 3]).cell 1 := by decide

/-- The least width, and the two ends of the range at 64 with their neighbours outside. -/
theorem witness_RangeCheckIsExact :
    1 ≤ 1 ∧ wmin 1 = -1 ∧ wmax 1 = 0 ∧ wmin 64 = wMin ∧ wmax 64 = wMax ∧
      wmin 64 ≤ wMin ∧ wMin ≤ wmax 64 ∧ wmin 64 ≤ wMax ∧ wMax ≤ wmax 64 ∧
      wMin - 1 < wmin 64 ∧ wmax 64 < wMax + 1 := by
  decide

/-- About to execute at a boundary, and inside the wait with a word to pop, with and without events to come; a turn of
the machine in focus and of another one. -/
theorem witness_StepRunsTheDecodedInstruction :
    AboutToExecute (alone (load [99]) []) ∧ decode ((load [99]).cell 0) = .ok .hlt ∧
      AboutToExecute (alone { load [3, 5] with blk := true, fh := true } [7]) ∧
      decode ((load [3, 5]).cell 0) = .ok (.inp .position) ∧ (alone (load [99]) []).schedule = [] ∧
      AboutToExecute (pairWith [.run 0, .run 1]) ∧
      decode (pair.mach.cell pair.mach.pc) = .ok (.out .immediate) ∧
      skipping.schedule = [] ∧ skipping.turn = some 1 ∧ skipping.self = 0 ∧ pair.enabled = true :=
  ⟨⟨rfl, rfl, fun _ => rfl, fun h => nomatch h⟩, by decide,
    ⟨rfl, rfl, fun h => (nomatch h), fun _ => rfl⟩, by decide, rfl, ⟨rfl, rfl, fun _ => rfl, fun h => nomatch h⟩, by decide⟩

/-- A word for each rejection; no event to come. -/
theorem witness_RejectedWordFaults :
    AboutToExecute (alone (load [-1]) []) ∧ decode ((load [-1]).cell 0) = .error .negativeWord ∧
      AboutToExecute (alone (load []) []) ∧ decode ((load []).cell 0) = .error .unknownOpcode ∧
      AboutToExecute (alone (load [301]) []) ∧ decode ((load [301]).cell 0) = .error .badModeDigit ∧
      AboutToExecute (alone (load [10001]) []) ∧ decode ((load [10001]).cell 0) = .error .immediateDestination ∧
      (alone (load [-1]) []).schedule = [] :=
  ⟨⟨rfl, rfl, fun _ => rfl, fun h => nomatch h⟩, by decide, ⟨rfl, rfl, fun _ => rfl, fun h => nomatch h⟩, by decide,
    ⟨rfl, rfl, fun _ => rfl, fun h => nomatch h⟩, by decide, ⟨rfl, rfl, fun _ => rfl, fun h => nomatch h⟩, by decide, rfl⟩

/-- A machine at a boundary with the flag set, and the same one halted. -/
def flagged : State := alone { load [0] with fh := true } []

/-- See `flagged`. -/
def flaggedThenHalted : Nat → State
  | 0 => flagged
  | _ + 1 => flagged.withMach flagged.mach.halt

/-- The machine's one step, then nothing. -/
def oneStep : Nat → Option Event
  | 0 => some (.run 0)
  | _ + 1 => none

/-- A state in which no machine is enabled, whatever its number. -/
theorem none_enabled {s : State} (h : s.after = []) (hb : s.before = []) (he : s.enabled = false) (k : Nat) :
    s.machineEnabled k = false := by
  cases k with
  | zero =>
    have : s.self = 0 := by simp [State.self, hb]
    rw [← this, State.machineEnabled_self, he]
  | succ k => cases ha : s.anyMachine <;> simp [State.machineEnabled, State.focus, State.machines, h, hb, ha]

theorem flagged_fair : WeaklyFair flaggedThenHalted oneStep := by
  intro k n h
  have hk := h (n + 1) (Nat.le_succ n)
  rw [show flaggedThenHalted (n + 1) = flagged.withMach flagged.mach.halt from rfl, none_enabled rfl rfl rfl] at hk
  cases hk

/-- The flag at a boundary; a weakly fair execution from there. -/
theorem witness_ForceHaltAtTheBoundary :
    (flagged.schedule = [] ∧ flagged.anyMachine = true ∧ flagged.mach.status = .running ∧
      flagged.mach.blk = false ∧ flagged.mach.fh = true) ∧
      Execution flaggedThenHalted oneStep ∧ WeaklyFair flaggedThenHalted oneStep ∧
      (flaggedThenHalted 0).machines[0]? = some flagged.mach :=
  ⟨by decide,
    { moves := fun n e h => by
        match n, h with
        | 0, h =>
          cases h
          rfl
      idles := fun n h => by
        match n, h with
        | n + 1, _ => rfl },
    flagged_fair,
    rfl⟩

/-- Waiting with an empty channel, and with a word. -/
theorem witness_WaitingInputIgnoresForceHalt :
    stuck.anyMachine = true ∧ stuck.mach.status = .running ∧ stuck.mach.blk = true ∧
      decode (stuck.mach.cell stuck.mach.pc) = .ok (.inp .position) ∧ stuck.mach.target 0 .position = some 0 ∧
      stuck.inChannel.map (fun c => c.q) = some [] ∧
      (alone { load [3, 0] with blk := true, fh := true } [-1]).inChannel.map (fun c => c.q) = some [-1] := by decide

/-- A halted machine, a faulted one, no machine, and a system in which no machine is enabled. -/
theorem witness_StoppedMachineHasNoStep :
    (alone { load [99] with status := .halted } []).mach.status = .halted ∧
      (alone { load [0] with status := .faulted, cause := .decode } []).mach.status = .faulted ∧
      (alone (load [99]) []).anyMachine = true ∧ (State.boot Config.ofSpec).anyMachine = false ∧
      stuck.schedule = [] ∧ ∀ k, stuck.machineEnabled k = false :=
  ⟨rfl, rfl, rfl, rfl, rfl, none_enabled rfl rfl rfl⟩

/-- `ADD #99, #0, [4]` and `MUL #99, #1, [4]` make the next instruction HLT; `IN [2]` makes it the word popped. -/
theorem witness_StoreIsSeenByTheNextFetch :
    (load [1101, 99, 0, 4]).mem.wf = true ∧
      decode ((load [1101, 99, 0, 4]).cell 0) = .ok (.add .immediate .immediate .position) ∧
      (load [1101, 99, 0, 4]).readable 0 .immediate = true ∧ (load [1101, 99, 0, 4]).readable 1 .immediate = true ∧
      (load [1101, 99, 0, 4]).target 2 .position = some 4 ∧
      isWord Config.ofSpec.xlen
        ((load [1101, 99, 0, 4]).value 0 .immediate + (load [1101, 99, 0, 4]).value 1 .immediate) = true ∧
      decode ((load [1101, 99, 0, 4]).value 0 .immediate + (load [1101, 99, 0, 4]).value 1 .immediate) = .ok .hlt ∧
      decode ((load [1102, 99, 1, 4]).cell 0) = .ok (.mul .immediate .immediate .position) ∧
      decode ((load [1102, 99, 1, 4]).value 0 .immediate * (load [1102, 99, 1, 4]).value 1 .immediate) = .ok .hlt ∧
      decode ((load [3, 2]).cell 0) = .ok (.inp .position) ∧ (load [3, 2]).target 0 .position = some 2 ∧
      (alone (load [3, 2]) [99]).inChannel = some { q := [99] } ∧ decode 99 = .ok .hlt := by
  decide

/-- LT and EQ store `1` or `0`: `1` is the word of `ADD [.], [.], [.]`, `0` the word of no instruction. -/
theorem witness_StoreIsSeenByTheNextFetch_comparisons :
    decode ((load [1107, 7, 8, 4]).cell 0) = .ok (.lt .immediate .immediate .position) ∧
      (load [1107, 7, 8, 4]).value 0 .immediate < (load [1107, 7, 8, 4]).value 1 .immediate ∧
      decode ((load [1108, 8, 8, 4]).cell 0) = .ok (.eq .immediate .immediate .position) ∧
      (load [1108, 8, 8, 4]).value 0 .immediate = (load [1108, 8, 8, 4]).value 1 .immediate ∧
      (load [1107, 7, 8, 4]).target 2 .position = some 4 ∧ (load [1108, 8, 8, 4]).target 2 .position = some 4 ∧
      decode 1 = .ok (.add .position .position .position) := by decide

/-- ADD: each operand fault alone, the largest sum, the smallest sum that overflows. -/
theorem witness_AddStoresTheSum :
    Mode.position.isDestination = true ∧ (load [1, -1, 0, 0]).readable 0 .position = false ∧
      (load [1, 0, -1, 0]).readable 0 .position = true ∧ (load [1, 0, -1, 0]).readable 1 .position = false ∧
      (load [1, 0, 0, -1]).readable 1 .position = true ∧ (load [1, 0, 0, -1]).target 2 .position = none ∧
      (load [1101, wMax, 0, 0]).target 2 .position = some 0 ∧
      isWord Config.ofSpec.xlen
        ((load [1101, wMax, 0, 0]).value 0 .immediate + (load [1101, wMax, 0, 0]).value 1 .immediate) = true ∧
      isWord Config.ofSpec.xlen
        ((load [1101, wMax, 1, 0]).value 0 .immediate + (load [1101, wMax, 1, 0]).value 1 .immediate) = false := by
  decide

/-- MUL: each operand fault alone, the most negative product, the smallest product that overflows. -/
theorem witness_MulStoresTheProduct :
    Mode.relative.isDestination = true ∧ (load [2, -1, 0, 0]).readable 0 .position = false ∧
      (load [2, 0, -1, 0]).readable 0 .position = true ∧ (load [2, 0, -1, 0]).readable 1 .position = false ∧
      (load [20002, 0, 0, -1]).readable 1 .position = true ∧ (load [20002, 0, 0, -1]).target 2 .relative = none ∧
      (load [21102, wMin, 1, 0]).target 2 .relative = some 0 ∧
      isWord Config.ofSpec.xlen
        ((load [1102, wMin, 1, 0]).value 0 .immediate * (load [1102, wMin, 1, 0]).value 1 .immediate) = true ∧
      isWord Config.ofSpec.xlen
        ((load [1102, wMin, -1, 0]).value 0 .immediate * (load [1102, wMin, -1, 0]).value 1 .immediate) = false := by
  decide

/-- LT: each operand fault alone, both sides of the comparison, equal operands among the second. -/
theorem witness_LtStoresTheComparison :
    Mode.position.isDestination = true ∧ (load [7, -1, 0, 0]).readable 0 .position = false ∧
      (load [7, 0, -1, 0]).readable 0 .position = true ∧ (load [7, 0, -1, 0]).readable 1 .position = false ∧
      (load [7, 0, 0, -1]).readable 1 .position = true ∧ (load [7, 0, 0, -1]).target 2 .position = none ∧
      (load [1107, 7, 8, 0]).target 2 .position = some 0 ∧
      (load [1107, 7, 8, 0]).value 0 .immediate < (load [1107, 7, 8, 0]).value 1 .immediate ∧
      (load [1107, 8, 8, 0]).value 1 .immediate ≤ (load [1107, 8, 8, 0]).value 0 .immediate := by decide

/-- EQ: each operand fault alone, equal operands, operands that differ. -/
theorem witness_EqStoresTheComparison :
    Mode.position.isDestination = true ∧ (load [8, -1, 0, 0]).readable 0 .position = false ∧
      (load [8, 0, -1, 0]).readable 0 .position = true ∧ (load [8, 0, -1, 0]).readable 1 .position = false ∧
      (load [8, 0, 0, -1]).readable 1 .position = true ∧ (load [8, 0, 0, -1]).target 2 .position = none ∧
      (load [1108, 8, 8, 0]).target 2 .position = some 0 ∧
      (load [1108, 8, 8, 0]).value 0 .immediate = (load [1108, 8, 8, 0]).value 1 .immediate ∧
      (load [1108, 8, 9, 0]).value 0 .immediate ≠ (load [1108, 8, 9, 0]).value 1 .immediate := by decide

theorem witness_InPopsAndStores :
    (alone (load [3, 0]) [99]).mach.target 0 .position = some 0 ∧
      (alone (load [3, 0]) [99]).inChannel = some { q := [99] } := by decide

/-- An empty channel, at the entry into the wait and inside it. -/
theorem witness_InWaitsOnAnEmptyChannel :
    (alone (load [3, 0]) []).mach.target 0 .position = some 0 ∧
      (alone (load [3, 0]) []).inChannel = some { q := [] } ∧
      (alone (load [3, 0]) []).mach.blk = false ∧ stuck.mach.blk = true ∧
      stuck.mach.target 0 .position = some 0 ∧
      stuck.inChannel = some { q := [] } := by decide

theorem witness_InFaultsBeforeTheChannel :
    Mode.position.isDestination = true ∧ (load [3, -4, 99]).target 0 .position = none ∧
      Mode.relative.isDestination = true ∧ ({ load [203, 3] with rb := -7 } : Mach).target 0 .relative = none := by
  decide

theorem witness_OutPushesAndRecords :
    (load [4, -1, 99]).readable 0 .position = false ∧ (alone (load [4, 0]) []).mach.readable 0 .position = true ∧
      (alone (load [4, 0]) []).outChannel = some { q := [] } := by decide

/-- JT: an unreadable condition; taken with a target that is unreadable, negative, `0`; not taken. -/
theorem witness_JtJumpsWhenNotZero :
    (load [5, -1, 0]).readable 0 .position = false ∧
      (load [105, 1, -1]).readable 0 .immediate = true ∧ (load [105, 1, -1]).value 0 .immediate ≠ 0 ∧
      (load [105, 1, -1]).readable 1 .position = false ∧
      (load [1105, 1, -1]).readable 1 .immediate = true ∧ (load [1105, 1, -1]).value 1 .immediate < 0 ∧
      0 ≤ (load [1105, 1, 0]).value 1 .immediate ∧ (load [1105, 0, -1]).value 0 .immediate = 0 := by decide

/-- JF: the same, the condition the other way. -/
theorem witness_JfJumpsWhenZero :
    (load [6, -1, 0]).readable 0 .position = false ∧
      (load [106, 0, -1]).readable 0 .immediate = true ∧ (load [106, 0, -1]).value 0 .immediate = 0 ∧
      (load [106, 0, -1]).readable 1 .position = false ∧
      (load [1106, 0, -1]).readable 1 .immediate = true ∧ (load [1106, 0, -1]).value 1 .immediate < 0 ∧
      0 ≤ (load [1106, 0, 0]).value 1 .immediate ∧ (load [1106, 1, -1]).value 0 .immediate ≠ 0 := by decide

/-- ARB: an unreadable operand, the largest base, the smallest overflow. -/
theorem witness_ArbAddsToTheBase :
    (load [9, -1]).readable 0 .position = false ∧ (load [109, 1]).readable 0 .immediate = true ∧
      isWord Config.ofSpec.xlen (({ load [109, 1] with rb := wMax - 1 } : Mach).rb +
        (load [109, 1]).value 0 .immediate) = true ∧
      isWord Config.ofSpec.xlen (({ load [109, 1] with rb := wMax } : Mach).rb +
        (load [109, 1]).value 0 .immediate) = false := by decide

/-- The frames: each instruction has a next state. -/
theorem witness_AluInstructionsFrame :
    (alone (load [1101, 1, 1, 0]) []).mach.mem.wf = true ∧
      (∃ t, exec (.add .immediate .immediate .position) (alone (load [1101, 1, 1, 0]) []) = .next t) ∧
      (∃ t, exec (.mul .immediate .immediate .position) (alone (load [1102, 1, 1, 0]) []) = .next t) ∧
      (∃ t, exec (.lt .immediate .immediate .position) (alone (load [1107, 1, 1, 0]) []) = .next t) ∧
      ∃ t, exec (.eq .immediate .immediate .position) (alone (load [1108, 1, 1, 0]) []) = .next t :=
  ⟨by decide, ⟨_, rfl⟩, ⟨_, rfl⟩, ⟨_, rfl⟩, ⟨_, rfl⟩⟩

theorem witness_InFrame :
    (alone (load [3, 0]) [7]).mach.mem.wf = true ∧
      ∃ t, exec (.inp .position) (alone (load [3, 0]) [7]) = .next t := ⟨by decide, _, rfl⟩

theorem witness_OutFrame : ∃ t, exec (.out .immediate) (alone (load [104, 42]) []) = .next t := ⟨_, rfl⟩

theorem witness_ControlInstructionsFrame :
    (∃ t, exec (.jt .immediate .immediate) (alone (load [1105, 1, 0]) []) = .next t) ∧
      (∃ t, exec (.jf .immediate .immediate) (alone (load [1106, 1, 0]) []) = .next t) ∧
      ∃ t, exec .hlt (alone (load [99]) []) = .next t := ⟨⟨_, rfl⟩, ⟨_, rfl⟩, ⟨_, rfl⟩⟩

theorem witness_ArbFrame : ∃ t, exec (.arb .immediate) (alone (load [109, 19]) []) = .next t := ⟨_, rfl⟩

/-- Faults: an instruction's, and one of the decoder. -/
theorem witness_InstructionFaultsArePrecise :
    ∃ t, (Instr.out .position).wf = true ∧ (alone (load [4, -1]) []).mach.status = .running ∧
      exec (.out .position) (alone (load [4, -1]) []) = .next t ∧ t.mach.status = .faulted :=
  ⟨_, rfl, rfl, rfl, rfl⟩

theorem witness_MachineFaultsArePrecise :
    ∃ t, machineStep (alone (load [0]) []) = .next t ∧ t.mach.status = .faulted := ⟨_, rfl, rfl⟩

/-! Channels and several machines. -/

theorem witness_StepsKeepChannelsInOrder :
    ∃ t, step pair = .next t ∧ pair.chans[1]? = some { q := [] } :=
  ⟨_, rfl, rfl⟩

/-- A step that pushes, seen at the output channel, the input channel and a channel of another machine. -/
theorem witness_MachineTouchesOnlyItsPorts :
    ∃ t, machineStep pair = .next t ∧ pair.chans[1]?.isSome = true ∧ 1 ≠ pair.mach.inch ∧
      pair.chans[0]?.isSome = true ∧ 0 ≠ pair.mach.outch ∧
      pair.chans[2]?.isSome = true ∧ 2 ≠ pair.mach.inch ∧ 2 ≠ pair.mach.outch :=
  ⟨_, rfl, by decide⟩

theorem witness_MachineStepLeavesTheRestAlone : ∃ t, machineStep pair = .next t := ⟨_, rfl⟩

/-- Two systems that differ in another machine and in that machine's channel, and a step that pushes. -/
theorem witness_MachineSeesOnlyItsInput :
    pair.anyMachine = { pair with after := [], chans := pair.chans.take 2 }.anyMachine ∧
      pair.cfg = { pair with after := [], chans := pair.chans.take 2 }.cfg ∧
      pair.mach = { pair with after := [], chans := pair.chans.take 2 }.mach ∧
      pair.inChannel = { pair with after := [], chans := pair.chans.take 2 }.inChannel ∧
      pair.outChannel.isSome = { pair with after := [], chans := pair.chans.take 2 }.outChannel.isSome ∧
      pair ≠ { pair with after := [], chans := pair.chans.take 2 } ∧ pair.mach.inch ≠ pair.mach.outch ∧
      queues (machineStep pair) = some [[], [7], [5], []] := by decide

/-- A machine just spawned on ports of the wiring meets the invariant when its image is words. -/
theorem spawned_inv {w : Wiring} {n i o : Nat} {image : List Int}
    (hext : ∀ e ∈ (Mach.spawned image i o).mem, e.1 < image.length)
    (hword : ∀ e ∈ (Mach.spawned image i o).mem, isWord (.bits 64) e.2 = true)
    (hi : i < n) (ho : o < n) (hw : { inch := i, outch := o } ∈ w.ports) :
    MachInv { xlen := .bits 64, wiring := w } n (Mach.spawned image i o) :=
  { memWf := Memory.wf_ofImage image
    memInExtent := (Mach.mem_inv_of_listed (by decide) hext hword).1
    memWords := (Mach.mem_inv_of_listed (by decide) hext hword).2
    rbWord := rfl
    outWord := fun h => nomatch h
    causeIff := ⟨fun _ h => (nomatch h), fun _ => rfl⟩
    waiting := fun h => nomatch h
    inBound := hi
    outBound := ho
    wired := hw }

theorem pair_inv : Inv pair :=
  { noneYet := fun h => nomatch h
    xlenOk := ⟨by decide, by decide⟩
    wiringOk := by decide
    machInv := fun k m hk => by
      match k, hk with
      | 0, hk =>
        cases hk
        exact spawned_inv (by decide) (by decide) (by decide) (by decide) (by decide)
      | 1, hk =>
        cases hk
        exact spawned_inv (by decide) (by decide) (by decide) (by decide) (by decide)
    ownEnds := fun i j mi mj hij hi hj => by
      match i, j, hi, hj with
      | 0, 0, _, _ => exact absurd rfl hij
      | 0, 1, hi, hj =>
        cases hi
        cases hj
        decide
      | 1, 0, hi, hj =>
        cases hi
        cases hj
        decide
      | 1, 1, _, _ => exact absurd rfl hij
    chansWired := by decide
    chanWords := fun ch c hc => by
      have h : ∀ c ∈ pair.chans, ∀ v ∈ c.q, isWord pair.cfg.xlen v = true := by decide
      exact h c (List.mem_of_getElem? hc) }

theorem stuck_inv : Inv stuck :=
  { noneYet := fun h => nomatch h
    xlenOk := ⟨by decide, by decide⟩
    wiringOk := by decide
    machInv := fun k m hk => by
      match k, hk with
      | 0, hk =>
        cases hk
        have h : MachInv { xlen := .bits 64, wiring := Wiring.twoLoops } 2 (load [3, 0]) :=
          spawned_inv (by decide) (by decide) (by decide) (by decide) (by decide)
        exact { h with waiting := fun _ => ⟨rfl, .position, 0, by decide, by decide⟩ }
    ownEnds := fun i j mi mj hij hi hj => by
      match i, j, hi, hj with
      | 0, 0, _, _ => exact absurd rfl hij
    chansWired := by decide
    chanWords := fun ch c hc => by
      have h : ∀ c ∈ stuck.chans, ∀ v ∈ c.q, isWord stuck.cfg.xlen v = true := by decide
      exact h c (List.mem_of_getElem? hc) }

/-- `JT #1, #0`: a machine that jumps to its own instruction for ever. -/
def looping : State := alone (load [1105, 1, 0]) []

theorem looping_step : step looping = .next looping := by
  have h : nextOf (step looping) = some looping := by decide
  unfold nextOf at h
  split at h
  · rename_i t ht
    rw [ht]
    cases h
    rfl
  · cases h
  · cases h

/-- The invariant holds of a machine that can step and of one that cannot; what happens next,
without and with an event to come; a run without end. -/
theorem witness_MachineStepsExactlyWhenEnabled :
    (Inv pair ∧ pair.enabled = true ∧ Inv stuck ∧ stuck.enabled = false) ∧
      (∃ t, step pair = .next t) ∧
      (∃ u, pair.nextEvent = some (.run 0) ∧
        eventStep (.run 0) { pair with schedule := pair.schedule.tail } = .next u) ∧
      (∃ u, (pairWith [.run 1]).nextEvent = some (.run 1) ∧
        eventStep (.run 1) { pairWith [.run 1] with schedule := (pairWith [.run 1]).schedule.tail } = .next u) ∧
      EndlessRun (fun _ => looping) ∧ ∀ m : Nat, 0 ≤ m → looping.machineEnabled 0 = true :=
  ⟨⟨pair_inv, rfl, stuck_inv, rfl⟩, ⟨_, rfl⟩, ⟨_, rfl, rfl⟩, ⟨_, rfl, rfl⟩, fun _ => looping_step, fun _ _ => rfl⟩

theorem witness_StepKeepsTheInvariant : Inv pair ∧ ∃ t, step pair = .next t := ⟨pair_inv, _, rfl⟩

theorem witness_UnconnectedMachinesCommute :
    ∃ s1 s2 mi mj, Inv pair ∧ 0 ≠ 1 ∧ pair.machines[0]? = some mi ∧ pair.machines[1]? = some mj ∧
      mi.outch ≠ mj.inch ∧ mj.outch ≠ mi.inch ∧
      eventStep (.run 0) pair = .next s1 ∧ eventStep (.run 1) pair = .next s2 :=
  ⟨_, _, _, _, pair_inv, by decide, rfl, rfl, by decide, by decide, rfl, rfl⟩

theorem witness_MachinesNeverGoBack :
    ∃ t m, step (pairWith [.run 1]) = .next t ∧ (pairWith [.run 1]).machines[1]? = some m := ⟨_, _, rfl, rfl⟩

theorem witness_DeadlockStopsEveryMachine : stuck.deadlocked = true := by decide

/-- A step for each row: the force-halt, a fault of the word at `pc`, a fault of its instruction, HLT, another
instruction; and a stopped machine beside a step. -/
theorem witness_StatusFollowsItsDiagram :
    (∃ t, machineStep flagged = .next t ∧ flagged.mach.blk = false ∧ flagged.mach.fh = true) ∧
      (∃ t, machineStep (alone (load [0]) []) = .next t ∧ (load [0]).nextFault (.bits 64) = some .decode) ∧
      (∃ t, machineStep (alone (load [1101, wMax, 1, 0]) []) = .next t ∧
        (load [1101, wMax, 1, 0]).nextFault (.bits 64) = some .overflow) ∧
      (∃ t, machineStep (alone (load [99]) []) = .next t ∧ (load [99]).nextFault (.bits 64) = none) ∧
      (∃ t, machineStep looping = .next t ∧ looping.mach.nextFault (.bits 64) = none) ∧
      ∃ t m, step { alone ended [] with schedule := [.host (.forceHalt 0)] } = .next t ∧
        { alone ended [] with schedule := [.host (.forceHalt 0)] }.machines[0]? = some m ∧ m.status ≠ .running :=
  ⟨⟨_, rfl, rfl, rfl⟩, ⟨_, rfl, by decide⟩, ⟨_, rfl, by decide⟩, ⟨_, rfl, by decide⟩, ⟨_, rfl, by decide⟩,
    _, _, rfl, rfl, by decide⟩

/-- The fault of each jump and of IN, OUT and ARB at the edge (60_exceptions.md R107). -/
theorem test_next_fault :
    (load [1105, 1, -1]).nextFault (.bits 64) = some .negativeAddress ∧
      (load [1105, 0, -1]).nextFault (.bits 64) = none ∧
      (load [3, -1]).nextFault (.bits 64) = some .negativeAddress ∧
      (load [4, -1]).nextFault (.bits 64) = some .negativeAddress ∧
      ({ load [109, 1] with rb := wMax } : Mach).nextFault (.bits 64) = some .overflow ∧
      (load [10001]).nextFault (.bits 64) = some .addressing := by decide

/-- An event that names a machine, one that names none, and a run of two events. -/
theorem witness_ScheduleChoosesTheMachine :
    ((pairWith [.run 1]).schedule = [.run 1] ∧ (pairWith [.run 1]).machines[1]?.isSome = true ∧
      (pairWith [.run 2]).schedule = [.run 2] ∧ (pairWith [.run 2]).machines[2]? = none) ∧
      pair.schedule = [] ∧ ∃ t, runEvents [.run 1, .host (.push 0 4), .run 0] pair = .next t :=
  ⟨by decide, rfl, _, rfl⟩

theorem witness_ScheduleRunsTheHostOperation :
    (pairWith [.host (.pop 1), .run 0]).schedule = [.host (.pop 1), .run 0] := rfl

/-! The host's operations. -/

/-- Three of four channels exist. -/
theorem witness_HostCreatesAnEmptyChannel :
    { wired with chans := wired.chans.take 3 }.chans.length < wired.cfg.wiring.ends.length := by decide

/-- An image of words, the second machine of the wiring; and in a system without a machine, its channels created. -/
theorem witness_SpawnCreatesAMachineAtReset :
    [wMax, 0, wMin].all (isWord wired.cfg.xlen) = true ∧ 2 < wired.chans.length ∧ 3 < wired.chans.length ∧
      wiringOk wired.cfg.wiring = true ∧ wired.bindingAgrees 2 3 = true ∧ wired.anyMachine = true ∧
      { State.boot Config.ofSpec with chans := wired.chans }.anyMachine = false ∧
      { State.boot Config.ofSpec with chans := wired.chans }.bindingAgrees 2 3 = true := by
  decide

theorem witness_HostPushAppends :
    (pair.chans[0]? = some { q := [] } ∧
      pair.cfg.wiring.ends[0]? = some { producer := .host, consumer := .machine 0 }) ∧
      (pipeline.chans[1]? = some { q := [] } ∧
        pipeline.cfg.wiring.ends[1]? = some { producer := .machine 0, consumer := .machine 1 }) ∧
      isWord pair.cfg.xlen wMin = true := by decide

/-- The host's end with no word, and with a word. -/
theorem witness_HostPopTakesTheHead :
    pair.chans[1]? = some { q := [] } ∧ pair.hostConsumes 1 = true ∧
      ((alone (load [99]) []).setChannel 1 { q := [4, -9] }).chans[1]? = some { q := [4, -9] } ∧
      ((alone (load [99]) []).setChannel 1 { q := [4, -9] }).hostConsumes 1 = true := by decide

/-- A value just outside the range, pushed and in an image; a channel from a machine to the host; a machine already
spawned, an ill wiring; the first channel, the first machine and the first place of the wiring that do not exist; an
end of a machine. -/
theorem witness_HostOperationsRefused :
    wired.chans[2]?.isSome = true ∧ wired.hostMayPush 2 = true ∧ isWord wired.cfg.xlen (wMin - 1) = false ∧
      wired.chans[3]?.isSome = true ∧
      wired.cfg.wiring.ends[3]? = some { producer := .machine 1, consumer := .host } ∧
      [wMax + 1].all (isWord wired.cfg.xlen) = false ∧
      [wMax].all (isWord wired.cfg.xlen) = true ∧ 0 < wired.chans.length ∧ 1 < wired.chans.length ∧
      wired.bindingAgrees 0 1 = false ∧ wiringOk (wiredAs twoConsumers).cfg.wiring = false ∧
      wired.chans.length ≤ 4 ∧ wired.cfg.wiring.ends.length ≤ wired.chans.length ∧
      wired.chans[2]?.isSome = true ∧ wired.hostConsumes 2 = false ∧ wired.machines.length ≤ 1 := by decide

theorem witness_HostTryPopAnswersEmptyOnlyWhenEmpty :
    pair.chans[1]? = some { q := [] } ∧ pair.hostConsumes 1 = true ∧
      ((alone (load [99]) []).setChannel 1 { q := [4, -9] }).chans[1]? = some { q := [4, -9] } ∧
      ((alone (load [99]) []).setChannel 1 { q := [4, -9] }).hostConsumes 1 = true := by decide

theorem witness_ForceHaltSetsTheFlagOnly : 0 < pair.machines.length ∧ 1 < pair.machines.length := by decide

/-- A running machine and a stopped one. -/
theorem witness_WaitReturnsWhenStopped :
    pair.machines[1]?.map (fun m => m.status) = some .running ∧
      (alone ended []).machines[0]? = some ended ∧ ended.status ≠ .running := by decide

theorem witness_LastOutputReadsTheRegister :
    (alone ended []).machines[0]? = some ended ∧ ended.outv = true ∧
      pair.machines[1]?.map (fun m => m.outv) = some false := by decide

theorem witness_DumpReadsTheMemoryOfAStoppedMachine :
    pair.machines[0]?.map (fun m => m.status) = some .running ∧
      (alone ended []).machines[0]? = some ended ∧ ended.status ≠ .running ∧ ended.ext = 3 := by decide

theorem witness_HostChangesOnlyForceHalt :
    ∃ t m, hostStep (.forceHalt 1) pair = .next t ∧ pair.machines[1]? = some m := ⟨_, _, rfl, rfl⟩

end Sys2Proof.Tests.Slice0
end

section
/-! The memory accesses MemRead and MemWrite (20_memory.md R33, R34): their equations, and the settled obligations. -/

namespace Sys2Proof.Machine

open Sys2Proof

/-- `MemRead` answers the cell's content and the machine grown to it (20_memory.md R33). -/
theorem Mach.memRead_eq (m : Mach) (a : Nat) : m.memRead a = (m.cell a, m.grow a) := rfl

/-- `MemWrite` changes no field but the memory and the extent (20_memory.md R34). -/
theorem Mach.memWrite_frame (m : Mach) (a : Nat) (v : Int) :
    m.memWrite a v = { m with mem := (m.memWrite a v).mem, ext := max m.ext (a + 1) } := rfl

theorem Mach.cell_memWrite_same {m : Mach} (h : m.mem.wf = true) (a : Nat) (v : Int) :
    (m.memWrite a v).cell a = v := by
  rw [Mach.cell_memWrite h, if_pos rfl]

theorem Mach.cell_memWrite_of_ne {m : Mach} (h : m.mem.wf = true) {a b : Nat} (hne : b ≠ a) (v : Int) :
    (m.memWrite a v).cell b = m.cell b := by
  rw [Mach.cell_memWrite h, if_neg hne]

/-- Settles O7: the growth touches `ext` alone, so the content read is that of the cell before it. -/
theorem memReadGrowsAndReturns : Obligations.MemReadGrowsAndReturns := by
  intro m a
  have hread : m.memRead a = (m.cell a, m.grow a) := m.memRead_eq a
  refine ⟨hread, fun hzero ha => ?_⟩
  rw [hread]
  exact hzero a ha

/-- Settles O8: in canonical memory a read after the write sees the one new cell and the old content elsewhere, so a
cell of the gap below `a` keeps its `0`. -/
theorem memWriteStoresOneCell : Obligations.MemWriteStoresOneCell := by
  intro m a v hwf
  have hother : ∀ b, b ≠ a → (m.memWrite a v).cell b = m.cell b := fun _ hne => Mach.cell_memWrite_of_ne hwf hne v
  refine ⟨Mach.cell_memWrite_same hwf a v, hother, fun hzero b hext hlt => ?_, m.memWrite_frame a v⟩
  calc (m.memWrite a v).cell b = m.cell b := hother b (Nat.ne_of_lt hlt)
    _ = 0 := hzero b hext

end Sys2Proof.Machine
end

section
/-! Channels (44_channel.md): the equations of a run of operations and of the host's pop, and the settled obligations. -/

namespace Sys2Proof.Machine

open Sys2Proof

@[simp] theorem runChannel_nil (c : Channel) : runChannel [] c = ([], c) := rfl

@[simp] theorem runChannel_push (v : Int) (ops : List ChannelOp) (c : Channel) :
    runChannel (.push v :: ops) c = runChannel ops (c.push v) := rfl

theorem runChannel_pop_of_none {c : Channel} (h : c.pop = none) (ops : List ChannelOp) :
    runChannel (.pop :: ops) c = runChannel ops c := by
  simp only [runChannel, h]

theorem runChannel_pop_of_some {c c' : Channel} {v : Int} (h : c.pop = some (v, c')) (ops : List ChannelOp) :
    runChannel (.pop :: ops) c = (v :: (runChannel ops c').1, (runChannel ops c').2) := by
  simp only [runChannel, h]

/-- Settles O38, by induction on the operations: a push moves its word from the words to be pushed to the tail of the
queue, and a pop that succeeds moves the head of the queue to the front of the words popped. -/
theorem channelIsFirstInFirstOut : Obligations.ChannelIsFirstInFirstOut := by
  intro ops
  induction ops with
  | nil => intro c; simp [pushedBy]
  | cons op ops ih =>
    intro c
    cases op with
    | push v =>
      calc c.q ++ v :: pushedBy ops = (c.push v).q ++ pushedBy ops := by simp
        _ = _ := ih (c.push v)
    | pop =>
      cases hpop : c.pop with
      | none =>
        rw [runChannel_pop_of_none hpop]
        exact ih c
      | some r =>
        obtain ⟨v, c'⟩ := r
        have hq : c.q = v :: c'.q := (Channel.pop_eq_some_iff c c' v).1 hpop
        rw [runChannel_pop_of_some hpop, hq]
        exact congrArg (v :: ·) (ih c')

/-- The host waits at its end of an empty channel (44_channel.md R93, log 5). -/
theorem hostPop_of_pop_none {s : State} {ch : Nat} {c : Channel} (hc : s.chans[ch]? = some c)
    (hown : s.hostConsumes ch = true) (h : c.pop = none) : hostPop ch s = .fault .hostWaits := by
  simp only [hostPop, hc, hown, h, if_true]

/-- The host's pop leaves the channel as `Channel.pop` does and replies with the head (44_channel.md R93). -/
theorem hostPop_of_pop_some {s : State} {ch : Nat} {c c' : Channel} {v : Int} (hc : s.chans[ch]? = some c)
    (hown : s.hostConsumes ch = true) (h : c.pop = some (v, c')) :
    hostPop ch s = .next ((s.setChannel ch c').reply (.value v)) := by
  simp only [hostPop, hc, hown, h, if_true]

/-- Settles O49: on an end the host owns its pop answers as the channel's own `pop` does, which fails exactly on the
empty channel. -/
theorem hostPopTakesTheHead : Obligations.HostPopTakesTheHead := by
  intro s ch c hc hown
  constructor
  · intro hempty
    exact hostPop_of_pop_none hc hown (c.pop_eq_none_iff.2 hempty)
  · intro v rest hq
    have hpop : c.pop = some (v, { c with q := rest }) := (c.pop_eq_some_iff _ v).2 hq
    exact hostPop_of_pop_some hc hown hpop

end Sys2Proof.Machine
end

section
/-! The decoder and the encoder (30_encoding.md): a word as its opcode and mode digits, what the checks answer, and the
settled obligations. -/

namespace Sys2Proof

/-- A mode's digit names the mode (30_encoding.md R54). -/
@[simp] theorem modeOfDigit_toDigit (m : Mode) : modeOfDigit m.toDigit = some m := by
  cases m <;> rfl

theorem Mode.toDigit_lt (m : Mode) : m.toDigit < 3 := by
  cases m <;> decide

/-- The digits `0`, `1`, `2` are those of the three modes. -/
theorem exists_mode_of_digit_le {d : Nat} (h : d ≤ 2) : ∃ m : Mode, m.toDigit = d := by
  interval_cases d
  exacts [⟨.position, rfl⟩, ⟨.immediate, rfl⟩, ⟨.relative, rfl⟩]

/-- A digit above `2` is no mode (30_encoding.md R54). -/
theorem modeOfDigit_eq_none {d : Nat} (h : 2 < d) : modeOfDigit d = none := by
  match d, h with
  | _ + 3, _ => rfl

/-- Check 1 (30_encoding.md R49). -/
theorem decode_neg {w : Int} (h : w < 0) : decode w = .error .negativeWord := if_pos h

theorem decode_nonneg {w : Int} (h : 0 ≤ w) : decode w = decodeNat w.toNat := if_neg (by omega)

/-- When the three mode digits are those of `m0`, `m1`, `m2`, the opcode decides (30_encoding.md R50, R51). -/
theorem decodeNat_of_digits {w : Nat} {m0 m1 m2 : Mode} (h0 : m0.toDigit = digit w 2) (h1 : m1.toDigit = digit w 3)
    (h2 : m2.toDigit = digit w 4) : decodeNat w = decodeOpcode (w % 100) m0 m1 m2 := by
  simp only [decodeNat, ← h0, ← h1, ← h2, modeOfDigit_toDigit]

/-- Check 2 (30_encoding.md R54): one mode digit above `2` is enough. -/
theorem decodeNat_badModeDigit {w : Nat} (h : 2 < digit w 2 ∨ 2 < digit w 3 ∨ 2 < digit w 4) :
    decodeNat w = .error .badModeDigit := by
  unfold decodeNat
  split
  · rename_i m0 m1 m2 h0 h1 h2
    rcases h with h | h | h
    · rw [modeOfDigit_eq_none h] at h0
      cases h0
    · rw [modeOfDigit_eq_none h] at h1
      cases h1
    · rw [modeOfDigit_eq_none h] at h2
      cases h2
  · rfl

/-- The opcodes (30_encoding.md R55). -/
def opcodes : List Nat := [1, 2, 3, 4, 5, 6, 7, 8, 9, 99]

theorem Instr.opcode_lt (i : Instr) : i.opcode < 100 := by
  cases i <;> simp [Instr.opcode]

/-- Check 3 (30_encoding.md R56). -/
theorem decodeOpcode_unknown {op : Nat} (h : op ∉ opcodes) (m0 m1 m2 : Mode) :
    decodeOpcode op m0 m1 m2 = .error .unknownOpcode := by
  unfold decodeOpcode
  split <;> simp_all [opcodes]

/-- For an opcode, check 4 is about one instruction: its operand modes are the first of the three. -/
theorem decodeOpcode_known {op : Nat} (h : op ∈ opcodes) (m0 m1 m2 : Mode) :
    ∃ i : Instr, decodeOpcode op m0 m1 m2 = checkDestination i ∧ i.opcode = op ∧ i.modes <+: [m0, m1, m2] ∧
      (i.wf = false ↔ op ∈ [1, 2, 7, 8] ∧ m2 = .immediate ∨ op = 3 ∧ m0 = .immediate) := by
  have hdest : ∀ m : Mode, m.isDestination = false ↔ m = .immediate := fun m => by cases m <;> decide
  simp only [opcodes, List.mem_cons, List.not_mem_nil, or_false] at h
  rcases h with rfl | rfl | rfl | rfl | rfl | rfl | rfl | rfl | rfl | rfl <;>
    refine ⟨_, rfl, rfl, ?_, ?_⟩ <;> simp [Instr.modes, Instr.wf, hdest]

theorem checkDestination_wf {i : Instr} (h : i.wf = true) : checkDestination i = .ok i := if_pos h

theorem checkDestination_not_wf {i : Instr} (h : i.wf = false) :
    checkDestination i = .error .immediateDestination := if_neg (by simp [h])

/-- The word with opcode `op` and the mode digits of `m0`, `m1`, `m2` decodes by its opcode (30_encoding.md R51,
R68). -/
theorem decode_word {op : Nat} (hop : op < 100) (m0 m1 m2 : Mode) :
    decode ((op + 100 * modeDigits [m0, m1, m2] : Nat) : Int) = decodeOpcode op m0 m1 m2 := by
  have h0 := m0.toDigit_lt
  have h1 := m1.toDigit_lt
  have h2 := m2.toDigit_lt
  rw [decode_nonneg (by omega), Int.toNat_natCast]
  simp only [modeDigits]
  rw [decodeNat_of_digits (m0 := m0) (m1 := m1) (m2 := m2)]
  · congr 1
    omega
  all_goals
    simp only [digit]
    omega

/-- An instruction's word carries its opcode and its modes, the unused digits `0` (30_encoding.md R68). -/
theorem decode_encode {i : Instr} (h : i.wf = true) : decode (encode i) = .ok i := by
  have key : ∀ m0 m1 m2 : Mode, modeDigits i.modes = modeDigits [m0, m1, m2] →
      decodeOpcode i.opcode m0 m1 m2 = checkDestination i → decode (encode i) = .ok i := by
    intro m0 m1 m2 hm hd
    rw [encode, hm, decode_word i.opcode_lt, hd, checkDestination_wf h]
  cases i with
  | add m0 m1 m2 => exact key m0 m1 m2 rfl rfl
  | mul m0 m1 m2 => exact key m0 m1 m2 rfl rfl
  | inp m0 => exact key m0 .position .position rfl rfl
  | out m0 => exact key m0 .position .position rfl rfl
  | jt m0 m1 => exact key m0 m1 .position rfl rfl
  | jf m0 m1 => exact key m0 m1 .position rfl rfl
  | lt m0 m1 m2 => exact key m0 m1 m2 rfl rfl
  | eq m0 m1 m2 => exact key m0 m1 m2 rfl rfl
  | arb m0 => exact key m0 .position .position rfl rfl
  | hlt => exact key .position .position .position rfl rfl

/-- Settles O4: the digits of an instruction's word are its opcode and the digits of its modes. -/
theorem decodeEncodeRoundTrip : Obligations.DecodeEncodeRoundTrip := fun _ => decode_encode

/-- Settles O5: the checks are made one after the other, the first two on the digits, the last two on the opcode. -/
theorem decoderChecksInOrder : Obligations.DecoderChecksInOrder := by
  intro w
  refine ⟨decode_neg, fun hw hbad => ?_, fun hw hd0 hd1 hd2 => ?_⟩
  · rw [decode_nonneg hw, decodeNat_badModeDigit hbad]
  obtain ⟨m0, h0⟩ := exists_mode_of_digit_le hd0
  obtain ⟨m1, h1⟩ := exists_mode_of_digit_le hd1
  obtain ⟨m2, h2⟩ := exists_mode_of_digit_le hd2
  have hdecode : decode w = decodeOpcode (w.toNat % 100) m0 m1 m2 := by
    rw [decode_nonneg hw, decodeNat_of_digits h0 h1 h2]
  have himm : ∀ m : Mode, m = .immediate ↔ m.toDigit = 1 := fun m => by cases m <;> decide
  rw [hdecode, ← h0, ← h2, ← himm, ← himm]
  refine ⟨fun hop => decodeOpcode_unknown hop m0 m1 m2, fun hop hm => ?_, fun hop hm => ?_, fun hop hF3 hIn => ?_⟩
  · obtain ⟨i, hi, -, -, hwf⟩ := decodeOpcode_known ((by decide : [1, 2, 7, 8] ⊆ opcodes) hop) m0 m1 m2
    rw [hi, checkDestination_not_wf (hwf.2 (.inl ⟨hop, hm⟩))]
  · obtain ⟨i, hi, -, -, hwf⟩ := decodeOpcode_known (op := w.toNat % 100) (by rw [hop]; decide) m0 m1 m2
    rw [hi, checkDestination_not_wf (hwf.2 (.inr ⟨hop, hm⟩))]
  · obtain ⟨i, hi, hopc, hmodes, hwf⟩ := decodeOpcode_known hop m0 m1 m2
    have hok : i.wf = true := by
      rw [← Bool.not_eq_false, hwf]
      exact not_or.2 ⟨hF3, hIn⟩
    refine ⟨i, by rw [hi, checkDestination_wf hok], hok, hopc, fun j m hj => ?_⟩
    have hget : [m0, m1, m2][j]? = some m := by
      obtain ⟨rest, hrest⟩ := hmodes
      rw [← hrest, List.getElem?_append_left (List.getElem?_eq_some_iff.1 hj).1, hj]
    match j, hget with
    | 0, hget => exact (Option.some.inj hget) ▸ h0
    | 1, hget => exact (Option.some.inj hget) ▸ h1
    | 2, hget => exact (Option.some.inj hget) ▸ h2

/-- Settles O6: the digits up to position 4 and the opcode are those of the word mod 100000. -/
theorem decodeIgnoresHighDigits : Obligations.DecodeIgnoresHighDigits := by
  intro w hw
  have hmod : (w % 100000).toNat = w.toNat % 100000 := by omega
  have hdigit : ∀ k, k < 5 → digit (w.toNat % 100000) k = digit w.toNat k := by
    intro k hk
    unfold digit
    interval_cases k <;> omega
  have hop : w.toNat % 100000 % 100 = w.toNat % 100 := by omega
  rw [decode_nonneg hw, decode_nonneg (by omega), hmod]
  simp only [decodeNat, hop, hdigit 2 (by decide), hdigit 3 (by decide), hdigit 4 (by decide)]

/-- Settles O3: each word is decoded as its digits say. -/
theorem decodeSampleWords : Obligations.DecodeSampleWords := by
  unfold Obligations.DecodeSampleWords
  decide

end Sys2Proof
end

section
/-! Operands, the range check and the instructions' results (30_encoding.md section 5, 40_alu.md, 41_io.md,
42_control.md, 43_relbase.md): an equation per instruction and path, and the settled obligations. -/

namespace Sys2Proof.Machine

open Sys2Proof

/-! ### Operands -/

theorem Mach.load_immediate (m : Mach) (i : Nat) :
    m.load i .immediate = .ok (m.cell (m.pc + 1 + i)) (m.growAll [m.pc + 1 + i]) := rfl

/-- An operand with a negative effective address (30_encoding.md R59). -/
theorem Mach.load_of_neg {m : Mach} {i : Nat} {mode : Mode} {a : Int} (ha : m.opAddress i mode = some a) (h : a < 0) :
    m.load i mode = .raised .negativeAddress (m.growAll [m.litCell i]) := by
  rw [Mach.load_eq, if_neg]
  simp only [Mach.readable, ha, decide_eq_true_eq]
  omega

theorem Mach.load_of_nonneg {m : Mach} {i : Nat} {mode : Mode} {a : Int} (ha : m.opAddress i mode = some a)
    (h : 0 ≤ a) : m.load i mode = .ok (m.cell a.toNat) (m.growAll [m.litCell i, a.toNat]) := by
  simp [Mach.load_eq, Mach.readable, Mach.value, Mach.readCells, ha, h]

theorem Mach.dest_of_neg {m : Mach} {i : Nat} {mode : Mode} {a : Int} (ha : m.opAddress i mode = some a) (h : a < 0) :
    m.dest i mode = .raised .negativeAddress (m.growAll [m.litCell i]) := by
  have hm : mode ≠ .immediate := by
    rintro rfl
    cases ha
  simp [Mach.dest_eq, Mach.target, ha, h, hm]

theorem Mach.dest_of_nonneg {m : Mach} {i : Nat} {mode : Mode} {a : Int} (ha : m.opAddress i mode = some a)
    (h : 0 ≤ a) : m.dest i mode = .ok a.toNat (m.growAll [m.litCell i]) := by
  simp [Mach.dest_eq, Mach.target, ha, Int.not_lt.2 h]

/-- Settles O9: what a load answers depends on the sign of the effective address alone. -/
theorem loadFollowsTheMode : Obligations.LoadFollowsTheMode := by
  intro m i
  exact ⟨m.load_immediate i, Mach.load_of_neg rfl, Mach.load_of_nonneg rfl, Mach.load_of_neg rfl,
    Mach.load_of_nonneg rfl⟩

/-- Settles O10: what a destination answers depends on the sign of the effective address alone. -/
theorem destFollowsTheMode : Obligations.DestFollowsTheMode := by
  intro m i
  exact ⟨Mach.dest_of_neg rfl, Mach.dest_of_nonneg rfl, Mach.dest_of_neg rfl, Mach.dest_of_nonneg rfl⟩

/-! ### The range check -/

theorem isWord_bits_iff (n : Nat) (v : Int) : isWord (.bits n) v = true ↔ wmin n ≤ v ∧ v ≤ wmax n := by
  simp [isWord]

theorem chk_of_isWord {x : XLen} {v : Int} (h : isWord x v = true) : chk x v = .ok v := if_pos h

theorem chk_of_not_isWord {x : XLen} {v : Int} (h : isWord x v = false) : chk x v = .error .overflow :=
  if_neg (by simp [h])

/-- Settles O11: the check passes exactly the words, and the words are the range. -/
theorem rangeCheckIsExact : Obligations.RangeCheckIsExact := by
  refine ⟨fun n _ => ⟨by simp [wmin], by simp [wmax]⟩, fun n v => ⟨fun hlo hhi => ?_, fun hout => ?_, rfl⟩⟩
  · exact chk_of_isWord ((isWord_bits_iff n v).2 ⟨hlo, hhi⟩)
  · refine chk_of_not_isWord ?_
    rw [← Bool.not_eq_true, isWord_bits_iff]
    omega

/-! ### ADD, MUL, LT, EQ -/

/-- A destination is not Immediate (30_encoding.md R61). -/
theorem Mode.isDestination_ne {m : Mode} (h : m.isDestination = true) : m ≠ .immediate := by
  rintro rfl
  cases h

/-- The operand faults of an instruction that is evaluated as format F3 (40_alu.md R77). -/
theorem f3Faults_of_exec {i : Instr} {s : State} {alu : Int → Int → Except Cause Int} {m0 m1 m2 : Mode}
    (hm2 : m2.isDestination = true) (h : exec i s = s.finish (evalF3 alu m0 m1 m2 s.mach)) :
    F3Faults i m0 m1 m2 s where
  first h0 := by
    rw [h, evalF3_eq, h0, if_neg Bool.false_ne_true, State.finish_raised_growAll]
  second h0 h1 := by
    rw [h, evalF3_eq, h0, h1, if_pos rfl, if_neg Bool.false_ne_true, State.finish_raised_growAll]
  third h0 h1 h2 := by
    rw [h, evalF3_eq, h0, h1, h2, if_pos rfl, if_pos rfl]
    simp only [if_neg (Mode.isDestination_ne hm2), State.finish_raised_growAll]

section
variable {s : State} {m0 m1 m2 : Mode} {d : Nat} (h0 : s.mach.readable 0 m0 = true)
  (h1 : s.mach.readable 1 m1 = true) (hd : s.mach.target 2 m2 = some d)
include h0 h1 hd

/-- A format F3 instruction stores the result of its operation (40_alu.md R77). -/
theorem finish_evalF3_ok {alu : Int → Int → Except Cause Int} {r : Int}
    (hr : alu (s.mach.value 0 m0) (s.mach.value 1 m1) = .ok r) :
    s.finish (evalF3 alu m0 m1 m2 s.mach) = s.f3Stores m0 m1 d r := by
  simp only [evalF3_eq, h0, h1, hd, hr, if_true, State.finish_f3]

/-- A format F3 instruction takes the fault of its operation before it writes (40_alu.md R77). -/
theorem finish_evalF3_error {alu : Int → Int → Except Cause Int} {c : Cause}
    (hr : alu (s.mach.value 0 m0) (s.mach.value 1 m1) = .error c) :
    s.finish (evalF3 alu m0 m1 m2 s.mach) = s.faultsAfter c (s.mach.f3Cells m0 m1) := by
  simp only [evalF3_eq, h0, h1, hd, hr, if_true, State.finish_raised_growAll]

theorem exec_add_ok (hw : isWord s.cfg.xlen (s.mach.value 0 m0 + s.mach.value 1 m1) = true) :
    exec (.add m0 m1 m2) s = s.f3Stores m0 m1 d (s.mach.value 0 m0 + s.mach.value 1 m1) :=
  finish_evalF3_ok h0 h1 hd (chk_of_isWord hw)

theorem exec_add_overflow (hw : isWord s.cfg.xlen (s.mach.value 0 m0 + s.mach.value 1 m1) = false) :
    exec (.add m0 m1 m2) s = s.faultsAfter .overflow (s.mach.f3Cells m0 m1) :=
  finish_evalF3_error h0 h1 hd (chk_of_not_isWord hw)

theorem exec_mul_ok (hw : isWord s.cfg.xlen (s.mach.value 0 m0 * s.mach.value 1 m1) = true) :
    exec (.mul m0 m1 m2) s = s.f3Stores m0 m1 d (s.mach.value 0 m0 * s.mach.value 1 m1) :=
  finish_evalF3_ok h0 h1 hd (chk_of_isWord hw)

theorem exec_mul_overflow (hw : isWord s.cfg.xlen (s.mach.value 0 m0 * s.mach.value 1 m1) = false) :
    exec (.mul m0 m1 m2) s = s.faultsAfter .overflow (s.mach.f3Cells m0 m1) :=
  finish_evalF3_error h0 h1 hd (chk_of_not_isWord hw)

theorem exec_lt_ok :
    exec (.lt m0 m1 m2) s = s.f3Stores m0 m1 d (if s.mach.value 0 m0 < s.mach.value 1 m1 then 1 else 0) :=
  finish_evalF3_ok h0 h1 hd rfl

theorem exec_eq_ok :
    exec (.eq m0 m1 m2) s = s.f3Stores m0 m1 d (if s.mach.value 0 m0 = s.mach.value 1 m1 then 1 else 0) :=
  finish_evalF3_ok h0 h1 hd rfl

end

/-- The word of a format F3 instruction, digit by digit (30_encoding.md R68). -/
theorem encode_f3 {i : Instr} {m0 m1 m2 : Mode} (h : i.modes = [m0, m1, m2]) :
    encode i = (i.opcode + 100 * m0.toDigit + 1000 * m1.toDigit + 10000 * m2.toDigit : Nat) := by
  simp only [encode, h, modeDigits]
  congr 1
  ring

theorem encode_f2 {i : Instr} {m0 m1 : Mode} (h : i.modes = [m0, m1]) :
    encode i = (i.opcode + 100 * m0.toDigit + 1000 * m1.toDigit : Nat) := by
  simp only [encode, h, modeDigits]
  congr 1
  ring

theorem encode_f1 {i : Instr} {m0 : Mode} (h : i.modes = [m0]) :
    encode i = (i.opcode + 100 * m0.toDigit : Nat) := by
  simp only [encode, h, modeDigits]
  rfl

/-- Settles O19: ADD is format F3 with the checked sum. -/
theorem addStoresTheSum : Obligations.AddStoresTheSum := fun _ _ _ _ hm2 =>
  ⟨encode_f3 rfl, f3Faults_of_exec hm2 rfl, fun _ h0 h1 hd => ⟨exec_add_ok h0 h1 hd, exec_add_overflow h0 h1 hd⟩⟩

/-- Settles O20: MUL is format F3 with the checked product. -/
theorem mulStoresTheProduct : Obligations.MulStoresTheProduct := fun _ _ _ _ hm2 =>
  ⟨encode_f3 rfl, f3Faults_of_exec hm2 rfl, fun _ h0 h1 hd => ⟨exec_mul_ok h0 h1 hd, exec_mul_overflow h0 h1 hd⟩⟩

/-- Settles O21: LT is format F3 with an operation that never faults. -/
theorem ltStoresTheComparison : Obligations.LtStoresTheComparison := by
  refine fun s m0 m1 m2 hm2 => ⟨encode_f3 rfl, f3Faults_of_exec hm2 rfl, fun d h0 h1 hd =>
    ⟨fun hlt => ?_, fun hge => ?_⟩⟩
  · rw [exec_lt_ok h0 h1 hd, if_pos hlt]
  · rw [exec_lt_ok h0 h1 hd, if_neg (by omega)]

/-- Settles O22: EQ is format F3 with an operation that never faults. -/
theorem eqStoresTheComparison : Obligations.EqStoresTheComparison := by
  refine fun s m0 m1 m2 hm2 => ⟨encode_f3 rfl, f3Faults_of_exec hm2 rfl, fun d h0 h1 hd =>
    ⟨fun he => ?_, fun hne => ?_⟩⟩
  · rw [exec_eq_ok h0 h1 hd, if_pos he]
  · rw [exec_eq_ok h0 h1 hd, if_neg hne]

/-! ### IN, OUT -/

/-- IN with a word in its channel completes (41_io.md R79, cases a and d). -/
theorem exec_inp_of_cons {s : State} {m0 : Mode} {d : Nat} {c : Channel} {v : Int} {rest : List Int}
    (hd : s.mach.target 0 m0 = some d) (hc : s.inChannel = some c) (hq : c.q = v :: rest) :
    exec (.inp m0) s = .next ((s.setChannel s.mach.inch { c with q := rest }).withMach { s.mach with
      mem := s.mach.mem.write d v
      ext := s.mach.extAfter [s.mach.litCell 0, d]
      blk := false
      pc := s.mach.pc + 2 }) := by
  have hpop : c.pop = some (v, { c with q := rest }) := (c.pop_eq_some_iff _ v).2 hq
  simp only [exec, execIn_eq, hd, inputAt_eq hc, hpop, Mach.growAll_eq]
  rfl

/-- IN on an empty channel enters the wait (41_io.md R79, case b). -/
theorem exec_inp_enters_wait {s : State} {m0 : Mode} {d : Nat} {c : Channel} (hd : s.mach.target 0 m0 = some d)
    (hc : s.inChannel = some c) (hq : c.q = []) (hb : s.mach.blk = false) :
    exec (.inp m0) s = .next (s.withMach { s.mach with blk := true, ext := s.mach.extAfter [s.mach.litCell 0] }) := by
  simp only [exec, execIn_eq, hd, inputAt_eq hc, c.pop_eq_none_iff.2 hq, Mach.growAll_eq, hb]
  rfl

/-- Inside the wait there is no step while the channel is empty (41_io.md R79, case c). -/
theorem exec_inp_holds {s : State} {m0 : Mode} {d : Nat} {c : Channel} (hd : s.mach.target 0 m0 = some d)
    (hc : s.inChannel = some c) (hq : c.q = []) (hb : s.mach.blk = true) :
    exec (.inp m0) s = .fault .inputEmpty := by
  simp only [exec, execIn_eq, hd, inputAt_eq hc, c.pop_eq_none_iff.2 hq, Mach.growAll_blk, hb, if_true]

theorem exec_inp_fault {s : State} {m0 : Mode} (hm : m0.isDestination = true) (hd : s.mach.target 0 m0 = none) :
    exec (.inp m0) s = s.faultsAfter .negativeAddress [s.mach.litCell 0] := by
  simp only [exec, execIn_eq, hd, if_neg (Mode.isDestination_ne hm)]

theorem exec_out_fault {s : State} {m0 : Mode} (h0 : s.mach.readable 0 m0 = false) :
    exec (.out m0) s = s.faultsAfter .negativeAddress [s.mach.litCell 0] := by
  simp only [exec, execOut_eq, h0, if_neg Bool.false_ne_true]

/-- OUT with a readable operand pushes it and records it (41_io.md R80). -/
theorem exec_out_ok {s : State} {m0 : Mode} {c : Channel} (h0 : s.mach.readable 0 m0 = true)
    (hc : s.outChannel = some c) :
    exec (.out m0) s =
      .next ((s.setChannel s.mach.outch { c with q := c.q ++ [s.mach.value 0 m0] }).withMach { s.mach with
        out := s.mach.value 0 m0
        outv := true
        ext := s.mach.extAfter (s.mach.readCells 0 m0)
        pc := s.mach.pc + 2 }) := by
  simp only [exec, execOut_eq, h0, if_true, outputOf_eq hc, Mach.growAll_eq]
  rfl

/-- Settles O23 by the equation of an IN that completes. -/
theorem inPopsAndStores : Obligations.InPopsAndStores := fun _ _ _ _ _ _ hd hc hq =>
  ⟨encode_f1 rfl, exec_inp_of_cons hd hc hq⟩

/-- Settles O24 by the equations of an IN outside and inside the wait. -/
theorem inWaitsOnAnEmptyChannel : Obligations.InWaitsOnAnEmptyChannel := fun _ _ _ _ hd hc hq =>
  ⟨exec_inp_enters_wait hd hc hq, exec_inp_holds hd hc hq⟩

/-- Settles O25: the destination is resolved before the channel is looked at. -/
theorem inFaultsBeforeTheChannel : Obligations.InFaultsBeforeTheChannel := fun _ _ => exec_inp_fault

/-- Settles O26: OUT faults on its operand or pushes it. -/
theorem outPushesAndRecords : Obligations.OutPushesAndRecords := fun _ _ =>
  ⟨encode_f1 rfl, exec_out_fault, fun _ => exec_out_ok⟩

/-! ### JT, JF, HLT, ARB -/

section
variable {i : Instr} {s : State} {taken : Int → Bool} {m0 m1 : Mode}
  (h : exec i s = s.finish (evalJump taken m0 m1 s.mach))
include h

theorem jump_fault (h0 : s.mach.readable 0 m0 = false) :
    exec i s = s.faultsAfter .negativeAddress [s.mach.litCell 0] := by
  rw [h, evalJump_eq, h0, if_neg Bool.false_ne_true, State.finish_raised_growAll]

/-- A jump whose condition asks for it (42_control.md R82 to R84). -/
theorem jumpTaken_of_exec (h0 : s.mach.readable 0 m0 = true) (ht : taken (s.mach.value 0 m0) = true) :
    JumpTaken i m0 m1 s where
  unreadable h1 := by
    rw [h, evalJump_eq, h0, ht, h1, if_pos rfl, if_pos rfl, if_neg Bool.false_ne_true, State.finish_raised_growAll]
  negative h1 hneg := by
    rw [h, evalJump_eq, h0, ht, h1, if_pos rfl, if_pos rfl, if_pos rfl, if_pos hneg, State.finish_raised_growAll]
  taken h1 hpos := by
    rw [h, evalJump_eq, h0, ht, h1, if_pos rfl, if_pos rfl, if_pos rfl, if_neg (by omega), State.finish_ok,
      Mach.growAll_eq]
    rfl

theorem jump_falls_through (h0 : s.mach.readable 0 m0 = true) (ht : taken (s.mach.value 0 m0) = false) :
    exec i s = s.fallsThrough m0 := by
  rw [h, evalJump_eq, h0, ht, if_pos rfl, if_neg Bool.false_ne_true, State.finish_ok, Mach.growAll_eq]
  rfl

end

theorem exec_hlt (s : State) : exec .hlt s = .next (s.withMach { s.mach with status := .halted }) := rfl

theorem exec_arb_fault {s : State} {m0 : Mode} (h0 : s.mach.readable 0 m0 = false) :
    exec (.arb m0) s = s.faultsAfter .negativeAddress [s.mach.litCell 0] := by
  simp only [exec, execArb, evalArb_eq, h0, if_neg Bool.false_ne_true, State.finish_raised_growAll]

theorem exec_arb_ok {s : State} {m0 : Mode} (h0 : s.mach.readable 0 m0 = true)
    (hw : isWord s.cfg.xlen (s.mach.rb + s.mach.value 0 m0) = true) :
    exec (.arb m0) s = .next (s.withMach { s.mach with
      rb := s.mach.rb + s.mach.value 0 m0
      ext := s.mach.extAfter (s.mach.readCells 0 m0)
      pc := s.mach.pc + 2 }) := by
  simp only [exec, execArb, evalArb_eq, h0, hw, if_true, State.finish_ok, Mach.growAll_eq]
  rfl

theorem exec_arb_overflow {s : State} {m0 : Mode} (h0 : s.mach.readable 0 m0 = true)
    (hw : isWord s.cfg.xlen (s.mach.rb + s.mach.value 0 m0) = false) :
    exec (.arb m0) s = s.faultsAfter .overflow (s.mach.readCells 0 m0) := by
  simp only [exec, execArb, evalArb_eq, h0, hw, if_true, if_neg Bool.false_ne_true, State.finish_raised_growAll]

/-- Settles O27: JT is the jump taken on a condition that is not zero. -/
theorem jtJumpsWhenNotZero : Obligations.JtJumpsWhenNotZero := fun _ _ _ =>
  ⟨encode_f2 rfl, jump_fault rfl, fun h0 hne => jumpTaken_of_exec rfl h0 (decide_eq_true hne), fun h0 hz =>
    jump_falls_through rfl h0 (decide_eq_false (not_not.2 hz))⟩

/-- Settles O28: JF is the jump taken on a condition that is zero. -/
theorem jfJumpsWhenZero : Obligations.JfJumpsWhenZero := fun _ _ _ =>
  ⟨encode_f2 rfl, jump_fault rfl, fun h0 hz => jumpTaken_of_exec rfl h0 (decide_eq_true hz), fun h0 hne =>
    jump_falls_through rfl h0 (decide_eq_false hne)⟩

/-- Settles O29 by the equation of HLT. -/
theorem hltHalts : Obligations.HltHalts := fun s => ⟨rfl, exec_hlt s⟩

/-- Settles O30: ARB faults on its operand, on the sum, or sets the base. -/
theorem arbAddsToTheBase : Obligations.ArbAddsToTheBase := fun _ _ =>
  ⟨encode_f1 rfl, exec_arb_fault, exec_arb_ok, exec_arb_overflow⟩

end Sys2Proof.Machine
end

section
/-! What an instruction leaves unchanged (40_alu.md section 3, 41_io.md, 42_control.md, 43_relbase.md) and that a fault
is precise (60_exceptions.md R105), from the list of everything an instruction can do. -/

namespace Sys2Proof.Machine

open Sys2Proof

/-- A channel that exists holds what was put in its place. -/
theorem getElem?_set_of_some {α : Type} {l : List α} {k : Nat} {a : α} (h : l[k]? = some a) (b : α) :
    (l.set k b)[k]? = some b := by
  simp [List.getElem?_set_self', h]

/-- No instruction changes the surroundings of the machine in focus. -/
theorem ExecResult.sameSurroundings {s t : State} {i : Instr} (h : ExecResult s i t) : SameSurroundings s t := by
  cases h <;> constructor <;> rfl

/-- What a fault leaves of the state: `status` and `cause` are written and `ext` has grown (60_exceptions.md R105). -/
def State.FaultedTo (s : State) (c : Cause) (t : State) : Prop :=
  c ≠ .none ∧ ∃ as, t = s.withMach { s.mach with status := .faulted, cause := c, ext := s.mach.extAfter as }

theorem State.FaultedTo.statusKeptOrFaulted {s t : State} {c : Cause} (h : s.FaultedTo c t) :
    StatusKeptOrFaulted s t := by
  obtain ⟨hc, as, rfl⟩ := h
  exact .inr ⟨rfl, hc, rfl, rfl⟩

/-- The causes that an instruction raises (60_exceptions.md R101). -/
theorem faultedTo_of_cause {s : State} {i : Instr} {c : Cause} (as : List Nat)
    (hc : c = .negativeAddress ∨ (c = .overflow ∧ (i.opcode = 1 ∨ i.opcode = 2 ∨ i.opcode = 9)) ∨
      (c = .addressing ∧ i.wf = false)) :
    s.FaultedTo c (s.withMach { s.mach with status := .faulted, cause := c, ext := s.mach.extAfter as }) := by
  refine ⟨?_, as, rfl⟩
  rcases hc with rfl | ⟨rfl, -⟩ | ⟨rfl, -⟩ <;> decide

/-- A format F3 instruction faults or stores one result. -/
theorem ExecResult.f3_cases {s t : State} {i : Instr} {m0 m1 m2 : Mode} (hi : i.modes = [m0, m1, m2])
    (h : ExecResult s i t) :
    (∃ c, s.FaultedTo c t) ∨ ∃ d r as, s.mach.target 2 m2 = some d ∧ t = s.withMach { s.mach with
      mem := s.mach.mem.write d r
      pc := s.mach.pc + 4
      ext := s.mach.extAfter as } := by
  cases h with
  | faulted _ c as _ hc => exact .inl ⟨c, faultedTo_of_cause as hc⟩
  | stored _ n0 n1 n2 d r hn hd _ =>
    rw [hi] at hn
    cases hn
    exact .inr ⟨d, r, _, hd, rfl⟩
  | jumped _ n0 n1 p as hn => rcases hn with rfl | rfl <;> cases hi
  | _ => cases hi

/-- Settles O31: the four store at most at their destination. -/
theorem aluInstructionsFrame : Obligations.AluInstructionsFrame := by
  intro s t i m0 m1 m2 hi hwf h
  have hmodes : i.modes = [m0, m1, m2] := by rcases hi with rfl | rfl | rfl | rfl <;> rfl
  have hres := exec_next_cases h
  refine ⟨hres.sameSurroundings, ?_⟩
  obtain ⟨c, hf⟩ | ⟨d, r, as, hd, rfl⟩ := hres.f3_cases hmodes
  · have hstatus := hf.statusKeptOrFaulted
    obtain ⟨-, as, rfl⟩ := hf
    exact ⟨rfl, hstatus, rfl, rfl, rfl, rfl, s.mach.ext_le_extAfter as, fun _ _ => rfl⟩
  · refine ⟨rfl, .inl ⟨rfl, rfl⟩, rfl, rfl, rfl, rfl, s.mach.ext_le_extAfter as, fun a ha => ?_⟩
    calc (s.mach.mem.write d r).read a = if a = d then r else s.mach.cell a := Memory.read_write hwf d a r
      _ = s.mach.cell a := if_neg (ha d hd)

/-- Settles O32: IN faults, enters the wait, or pops the head into its destination. -/
theorem inFrame : Obligations.InFrame := by
  intro s t m0 hwf h
  have hres := exec_next_cases h
  refine ⟨hres.sameSurroundings, ?_⟩
  cases hres with
  | faulted _ c as _ hc =>
    exact ⟨(faultedTo_of_cause as hc).statusKeptOrFaulted, rfl, rfl, rfl, s.mach.ext_le_extAfter as, fun _ _ => rfl,
      fun c hin => ⟨c, hin, .inl rfl⟩, fun _ _ => rfl⟩
  | waits _ d c _ _ _ _ =>
    exact ⟨.inl ⟨rfl, rfl⟩, rfl, rfl, rfl, s.mach.ext_le_extAfter _, fun _ _ => rfl,
      fun c hin => ⟨c, hin, .inl rfl⟩, fun _ _ => rfl⟩
  | popped _ d c v rest hd hc hq =>
    refine ⟨.inl ⟨rfl, rfl⟩, rfl, rfl, rfl, s.mach.ext_le_extAfter _, fun ch hch => ?_, fun c' hin => ?_,
      fun a ha => ?_⟩
    · exact List.getElem?_set_ne (Ne.symm hch)
    · cases hc.symm.trans hin
      exact ⟨_, getElem?_set_of_some hc _, .inr ⟨v, hq⟩⟩
    · calc (s.mach.mem.write d v).read a = if a = d then v else s.mach.cell a := Memory.read_write hwf d a v
        _ = s.mach.cell a := if_neg (ha d hd)
  | stored _ n0 n1 n2 d r hn => cases hn
  | jumped _ n0 n1 p as hn => rcases hn with hn | hn <;> cases hn

/-- Settles O33: OUT faults, or appends one word to its output channel. -/
theorem outFrame : Obligations.OutFrame := by
  intro s t m0 h
  have hres := exec_next_cases h
  refine ⟨hres.sameSurroundings, ?_⟩
  cases hres with
  | faulted _ c as _ hc =>
    exact ⟨(faultedTo_of_cause as hc).statusKeptOrFaulted, rfl, rfl, rfl, s.mach.ext_le_extAfter as, fun _ => rfl,
      fun _ _ => rfl, fun c hout => ⟨c, hout, .inl rfl⟩⟩
  | pushed _ c _ hc =>
    refine ⟨.inl ⟨rfl, rfl⟩, rfl, rfl, rfl, s.mach.ext_le_extAfter _, fun _ => rfl, fun ch hch => ?_, fun c' hout => ?_⟩
    · exact List.getElem?_set_ne (Ne.symm hch)
    · cases hc.symm.trans hout
      exact ⟨_, getElem?_set_of_some hc _, .inr ⟨_, rfl⟩⟩
  | stored _ n0 n1 n2 d r hn => cases hn
  | jumped _ n0 n1 p as hn => rcases hn with hn | hn <;> cases hn

/-- Settles O34: a jump faults or sets `pc`, HLT sets the status. -/
theorem controlInstructionsFrame : Obligations.ControlInstructionsFrame := by
  intro s t i m0 m1 hi h
  have hres := exec_next_cases h
  refine ⟨hres.sameSurroundings, ?_⟩
  cases hres with
  | faulted _ c as _ hc =>
    exact ⟨rfl, .inl (faultedTo_of_cause as hc).statusKeptOrFaulted, rfl, rfl, rfl, rfl, s.mach.ext_le_extAfter as,
      fun _ => rfl⟩
  | jumped _ n0 n1 p as _ =>
    exact ⟨rfl, .inl (.inl ⟨rfl, rfl⟩), rfl, rfl, rfl, rfl, s.mach.ext_le_extAfter as, fun _ => rfl⟩
  | halted => exact ⟨rfl, .inr ⟨rfl, rfl, rfl, rfl⟩, rfl, rfl, rfl, rfl, Nat.le_refl _, fun _ => rfl⟩
  | stored _ n0 n1 n2 d r hn => rcases hi with rfl | rfl | rfl <;> cases hn
  | _ => rcases hi with hi | hi | hi <;> cases hi

/-- Settles O35: ARB faults, or sets the base. -/
theorem arbFrame : Obligations.ArbFrame := by
  intro s t m0 h
  have hres := exec_next_cases h
  refine ⟨hres.sameSurroundings, ?_⟩
  cases hres with
  | faulted _ c as _ hc =>
    exact ⟨rfl, (faultedTo_of_cause as hc).statusKeptOrFaulted, rfl, rfl, rfl, s.mach.ext_le_extAfter as, fun _ => rfl⟩
  | based _ _ => exact ⟨rfl, .inl ⟨rfl, rfl⟩, rfl, rfl, rfl, s.mach.ext_le_extAfter _, fun _ => rfl⟩
  | stored _ n0 n1 n2 d r hn => cases hn
  | jumped _ n0 n1 p as hn => rcases hn with hn | hn <;> cases hn

/-- Of a running machine's instruction only a fault ends Faulted. -/
theorem ExecResult.faulted_cases {s t : State} {i : Instr} (h : ExecResult s i t) (hs : s.mach.status = .running)
    (ht : t.mach.status = .faulted) :
    s.FaultedTo t.mach.cause t ∧ (t.mach.cause = .negativeAddress ∨
      (t.mach.cause = .overflow ∧ (i.opcode = 1 ∨ i.opcode = 2 ∨ i.opcode = 9)) ∨
        (t.mach.cause = .addressing ∧ i.wf = false)) := by
  cases h with
  | faulted _ c as _ hc => exact ⟨faultedTo_of_cause as hc, hc⟩
  | halted => cases ht
  | _ => cases hs.symm.trans ht

/-- Settles O36: the decoder's destination check leaves NegativeAddress and Overflow as the causes. -/
theorem instructionFaultsArePrecise : Obligations.InstructionFaultsArePrecise := by
  intro i s t hwf hs h ht
  obtain ⟨⟨-, as, he⟩, hc⟩ := (exec_next_cases h).faulted_cases hs ht
  have hext : t.mach.ext = s.mach.extAfter as := congrArg (fun u => u.mach.ext) he
  refine ⟨by rw [hext]; exact he, by rw [hext]; exact s.mach.ext_le_extAfter as, ?_⟩
  rcases hc with hc | hc | ⟨-, hill⟩
  · exact .inl hc
  · exact .inr hc
  · rw [hwf] at hill
    cases hill

end Sys2Proof.Machine
end

section
/-! The instruction cycle (30_encoding.md R64): when a machine runs it, what it answers, and the settled obligations. -/

namespace Sys2Proof.Machine

open Sys2Proof

/-! ### Equations of the machine's step -/

theorem machineStep_of_aboutToExecute {s : State} (h : AboutToExecute s) : machineStep s = cycle s := by
  obtain ⟨ha, hs, hb, hw⟩ := h
  cases hblk : s.mach.blk with
  | true => simp [machineStep, ha, hs, hblk, hw hblk]
  | false => simp [machineStep, ha, hs, hblk, hb hblk]

/-- A force-halt request at a boundary (60_exceptions.md R113). -/
theorem machineStep_of_forceHalt {s : State} (ha : s.anyMachine = true) (hs : s.mach.status = .running)
    (hb : s.mach.blk = false) (hf : s.mach.fh = true) :
    machineStep s = .next (s.withMach { s.mach with status := .halted }) := by
  simp [machineStep, ha, hs, hb, hf, Mach.halt]

/-- Inside the wait on an empty channel (41_io.md R78). -/
theorem machineStep_of_holding {s : State} (ha : s.anyMachine = true) (hs : s.mach.status = .running)
    (hb : s.mach.blk = true) (he : s.inputIsEmpty = true) : machineStep s = .fault .inputEmpty := by
  simp [machineStep, ha, hs, hb, he]

theorem State.inputIsEmpty_eq {s : State} {c : Channel} (h : s.inChannel = some c) :
    s.inputIsEmpty = c.q.isEmpty := by
  simp only [State.inputIsEmpty, h]

theorem AboutToExecute.enabled {s : State} (h : AboutToExecute s) : s.enabled = true := by
  obtain ⟨ha, hs, -, hw⟩ := h
  cases hb : s.mach.blk with
  | true => simp [State.enabled, ha, hs, hw hb]
  | false => simp [State.enabled, ha, hs, hb]

/-- An enabled machine halts at a force-halt request or executes. -/
theorem State.enabled_cases {s : State} (h : s.enabled = true) :
    s.anyMachine = true ∧ s.mach.status = .running ∧
      ((s.mach.blk = false ∧ s.mach.fh = true) ∨
        (¬(s.mach.blk = false ∧ s.mach.fh = true) ∧ AboutToExecute s)) := by
  simp only [State.enabled, Bool.and_eq_true, decide_eq_true_eq] at h
  obtain ⟨⟨ha, hs⟩, hw⟩ := h
  refine ⟨ha, hs, ?_⟩
  by_cases hf : s.mach.blk = false ∧ s.mach.fh = true
  · exact .inl hf
  · refine .inr ⟨hf, ha, hs, fun hb => ?_, fun hb => ?_⟩
    · exact Bool.eq_false_of_not_eq_true fun hfh => hf ⟨hb, hfh⟩
    · simpa [hb] using hw

theorem cycle_of_ok {s : State} {i : Instr} (h : decode (s.mach.cell s.mach.pc) = .ok i) :
    cycle s = exec i (s.withMach (s.mach.grow s.mach.pc)) := by
  simp only [cycle_eq, h]

theorem cycle_of_error {s : State} {e : DecodeError} (h : decode (s.mach.cell s.mach.pc) = .error e) :
    cycle s = s.faultsAfter (causeOfDecodeError e) [s.mach.pc] := by
  simp only [cycle_eq, h]

/-- Everything the step of a machine can do when it answers a next state: it halts at a boundary, takes the decoder's
fault, or runs the decoded instruction after the growth of the fetch (30_encoding.md R64). -/
inductive MachineResult (s t : State) : Prop where
  | forceHalted (hb : s.mach.blk = false) (hf : s.mach.fh = true)
      (ht : t = s.withMach { s.mach with status := .halted })
  | rejected (e : DecodeError) (hx : AboutToExecute s) (he : decode (s.mach.cell s.mach.pc) = .error e)
      (ht : s.FaultedTo (causeOfDecodeError e) t)
  | executed (i : Instr) (hx : AboutToExecute s) (hi : decode (s.mach.cell s.mach.pc) = .ok i)
      (hr : ExecResult (s.withMach (s.mach.grow s.mach.pc)) i t)

theorem causeOfDecodeError_ne_none (e : DecodeError) : causeOfDecodeError e ≠ .none := by
  cases e <;> decide

theorem machineStep_result {s t : State} (h : machineStep s = .next t) : MachineResult s t := by
  obtain ⟨ha, hs, ⟨hb, hf⟩ | ⟨-, hx⟩⟩ := State.enabled_cases (enabled_of_machineStep h)
  · rw [machineStep_of_forceHalt ha hs hb hf] at h
    cases h
    exact .forceHalted hb hf rfl
  · rw [machineStep_of_aboutToExecute hx] at h
    obtain ⟨i, hi, -, hr⟩ | ⟨e, he, ht⟩ := cycle_next_cases h
    · exact .executed i hx hi hr
    · cases ht
      exact .rejected e hx he ⟨causeOfDecodeError_ne_none e, _, rfl⟩

/-- A machine that steps is the one in focus, and it runs. -/
theorem machineStep_running {s t : State} (h : machineStep s = .next t) :
    s.anyMachine = true ∧ s.mach.status = .running := by
  obtain ⟨ha, hs, -⟩ := machineStep_cases h
  exact ⟨ha, hs⟩

/-- A faulted instruction after the fetch's growth, said of the state before the fetch. -/
theorem State.FaultedTo.of_grow {s t : State} {c : Cause} {a : Nat} (h : (s.withMach (s.mach.grow a)).FaultedTo c t) :
    s.FaultedTo c t := by
  obtain ⟨hc, as, rfl⟩ := h
  exact ⟨hc, a :: as, rfl⟩

/-- The fetch changes nothing of the surroundings. -/
theorem SameSurroundings.of_grow {s t : State} {a : Nat} (h : SameSurroundings (s.withMach (s.mach.grow a)) t) :
    SameSurroundings s t :=
  { h with }

/-- Settles O41: no instruction changes the surroundings, nor does the fetch, the decoder's fault or the halt. -/
theorem machineStepLeavesTheRestAlone : Obligations.MachineStepLeavesTheRestAlone := by
  intro s t h
  cases machineStep_result h with
  | forceHalted _ _ ht =>
    subst ht
    constructor <;> rfl
  | rejected e _ _ ht =>
    obtain ⟨-, as, rfl⟩ := ht
    constructor <;> rfl
  | executed i _ _ hr => exact hr.sameSurroundings.of_grow

/-- Settles O37: a step that ends Faulted took the fault of the decoder or of the instruction. -/
theorem machineFaultsArePrecise : Obligations.MachineFaultsArePrecise := by
  intro s t h ht
  have hf : s.FaultedTo t.mach.cause t := by
    cases machineStep_result h with
    | forceHalted _ _ he =>
      subst he
      cases ht
    | rejected e _ _ hf =>
      have hcause : t.mach.cause = causeOfDecodeError e := by
        obtain ⟨-, as, rfl⟩ := hf
        rfl
      rwa [hcause]
    | executed i _ _ hr => exact (hr.faulted_cases (machineStep_running h).2 ht).1.of_grow
  obtain ⟨hc, as, he⟩ := hf
  have hext : t.mach.ext = s.mach.extAfter as := congrArg (fun u => u.mach.ext) he
  exact ⟨by rw [hext]; exact he, by rw [hext]; exact s.mach.ext_le_extAfter as, hc⟩

/-! ### The step of the system on the machine in focus -/

theorem State.withMach_grow (s : State) (a : Nat) :
    s.withMach (s.mach.grow a) = s.withMach { s.mach with ext := max s.mach.ext (a + 1) } := rfl

/-- Passing the turn puts the next machine in focus. -/
theorem State.passTurn_self {s : State} (h : s.anyMachine = true) :
    s.passTurn.self = (s.self + 1) % s.machines.length := by
  have hlt : (s.self + 1) % s.machines.length < s.machines.length :=
    Nat.mod_lt _ (Nat.zero_lt_of_lt (State.self_lt h))
  obtain ⟨t, ht⟩ := Option.isSome_iff_exists.1 ((s.focus_isSome_iff _).2 hlt)
  obtain ⟨-, -, hself, -⟩ := State.focus_eq_some ht
  rw [State.passTurn, ht]
  exact hself

/-- The state with machine `k` in focus is the same system. -/
theorem State.sameSystem_focus {s f : State} {k : Nat} (h : s.focus k = some f) : SameSystem s f := by
  obtain ⟨-, hm, -, hc, ha, hch, hs, hr⟩ := State.focus_eq_some h
  exact ⟨hc.symm, ha.symm, hm.symm, hch.symm, hs.symm, hr.symm⟩

theorem eventStep_run {s f : State} {k : Nat} (h : s.focus k = some f) : eventStep (.run k) s = machineStep f := by
  simp only [eventStep, h]

/-- The machine whose turn it is exists and is enabled. -/
theorem State.focus_of_turn {s : State} {k : Nat} (h : s.turn = some k) :
    ∃ f, s.focus k = some f ∧ f.enabled = true := by
  have he := State.enabled_of_turn h
  unfold State.machineEnabled at he
  split at he
  · cases he
  · exact ⟨_, by assumption, he⟩

theorem step_of_turn {s : State} {k : Nat} (hs : s.schedule = []) (ht : s.turn = some k) :
    step s = endTurn (eventStep (.run k) s) := by
  simp only [step, systemStep, hs, ht]

/-- Settles O12: at `pc` the decoder accepts the word, so the cycle is the instruction's; the system's step is that of
the machine whose turn it is. -/
theorem stepRunsTheDecodedInstruction : Obligations.StepRunsTheDecodedInstruction := by
  refine ⟨fun s i hx hi => ?_, fun s k hs ht => ?_, fun s => State.turn_of_enabled, fun s =>
    ⟨s.sameSystem_passTurn, State.passTurn_self⟩⟩
  · have hm : machineStep s = exec i (s.withMach (s.mach.grow s.mach.pc)) := by
      rw [machineStep_of_aboutToExecute hx, cycle_of_ok hi]
    refine ⟨hm, fun hsch => ?_⟩
    rw [step_of_enabled hsch hx.enabled, hm, State.withMach_grow]
  · obtain ⟨f, hf, he⟩ := State.focus_of_turn ht
    obtain ⟨-, -, hself, -⟩ := State.focus_eq_some hf
    exact ⟨f, hself, he, State.sameSystem_focus hf, by rw [step_of_turn hs ht, eventStep_run hf]⟩

/-- Settles O13: the cycle of a rejected word is the decoder's fault after the fetch. -/
theorem rejectedWordFaults : Obligations.RejectedWordFaults := by
  intro s e hx he
  have hcause : causeOfDecodeError e = if e = .negativeWord ∨ e = .unknownOpcode then .decode else .addressing := by
    cases e <;> rfl
  have hm : machineStep s = s.faultsAfter (causeOfDecodeError e) [s.mach.pc] := by
    rw [machineStep_of_aboutToExecute hx, cycle_of_error he]
  rw [← hcause]
  exact ⟨hm, fun hsch => by rw [step_of_enabled hsch hx.enabled, hm]⟩

/-! ### The wait of IN, and stores into the next instruction -/

@[simp] theorem Mach.readable_grow (m : Mach) (a i : Nat) (mode : Mode) :
    (m.grow a).readable i mode = m.readable i mode := Mach.readable_growAll m [a] i mode

@[simp] theorem Mach.value_grow (m : Mach) (a i : Nat) (mode : Mode) : (m.grow a).value i mode = m.value i mode :=
  Mach.value_growAll m [a] i mode

@[simp] theorem State.inChannel_withMach_grow (s : State) (a : Nat) :
    (s.withMach (s.mach.grow a)).inChannel = s.inChannel := rfl

@[simp] theorem State.outChannel_withMach_grow (s : State) (a : Nat) :
    (s.withMach (s.mach.grow a)).outChannel = s.outChannel := rfl

/-- The step of a machine at an IN with a word to pop (41_io.md R79). -/
theorem machineStep_inp_of_cons {s : State} {m0 : Mode} {d : Nat} {c : Channel} {v : Int} {rest : List Int}
    (hx : AboutToExecute s) (hi : decode (s.mach.cell s.mach.pc) = .ok (.inp m0)) (hd : s.mach.target 0 m0 = some d)
    (hc : s.inChannel = some c) (hq : c.q = v :: rest) :
    machineStep s = .next ((s.setChannel s.mach.inch { c with q := rest }).withMach { s.mach with
      mem := s.mach.mem.write d v
      ext := (s.mach.grow s.mach.pc).extAfter [s.mach.litCell 0, d]
      blk := false
      pc := s.mach.pc + 2 }) := by
  rw [machineStep_of_aboutToExecute hx, cycle_of_ok hi, exec_inp_of_cons (by simpa using hd) (by simpa using hc) hq]
  rfl

/-- Settles O15: the wait ends with the pop, at a boundary, where a force-halt request is seen. -/
theorem waitingInputIgnoresForceHalt : Obligations.WaitingInputIgnoresForceHalt := by
  intro s m0 d c ha hs hb hi hd hc
  refine ⟨fun hq => ?_, fun v rest hq => ?_⟩
  · refine machineStep_of_holding ha hs hb ?_
    rw [State.inputIsEmpty_eq hc, hq]
    rfl
  · have hx : AboutToExecute s := ⟨ha, hs, fun h => by simp [hb] at h, fun _ => by
      rw [State.inputIsEmpty_eq hc, hq]
      rfl⟩
    exact ⟨_, machineStep_inp_of_cons hx hi hd hc hq, rfl, rfl, rfl, getElem?_set_of_some hc _, fun hf =>
      machineStep_of_forceHalt ha hs rfl hf⟩

theorem Mach.grow_of_lt {m : Mach} {a : Nat} (h : a < m.ext) : m.grow a = m := by
  simp only [Mach.grow, Nat.max_eq_left (Nat.succ_le_of_lt h)]

/-- Where the extent covers `pc`, the fetch changes nothing. -/
theorem machineStep_of_covered {s : State} {j : Instr} (hx : AboutToExecute s) (hlt : s.mach.pc < s.mach.ext)
    (hj : decode (s.mach.cell s.mach.pc) = .ok j) : machineStep s = exec j s := by
  rw [machineStep_of_aboutToExecute hx, cycle_of_ok hj, Mach.grow_of_lt hlt]
  rfl

/-- A format F3 instruction that stores the word of `j` at `pc + 4` is followed by `j`. -/
theorem store_seen_of_f3Stores {s : State} {i j : Instr} {m0 m1 : Mode} {r : Int} (hx : AboutToExecute s)
    (hwf : s.mach.mem.wf = true) (hb : s.mach.blk = false) (hi : decode (s.mach.cell s.mach.pc) = .ok i)
    (hexec : exec i (s.withMach (s.mach.grow s.mach.pc)) =
      (s.withMach (s.mach.grow s.mach.pc)).f3Stores m0 m1 (s.mach.pc + 4) r)
    (hj : decode r = .ok j) : ∃ t, machineStep s = .next t ∧ t.mach.pc = s.mach.pc + 4 ∧ machineStep t = exec j t := by
  rw [machineStep_of_aboutToExecute hx, cycle_of_ok hi, hexec]
  refine ⟨_, rfl, rfl, machineStep_of_covered ?_ ?_ ?_⟩
  · exact ⟨hx.spawned, hx.running, hx.boundary, fun h => by cases hb.symm.trans h⟩
  · exact Mach.lt_extAfter_of_mem _ (by simp)
  · have hread : (s.mach.mem.write (s.mach.pc + 4) r).read (s.mach.pc + 4) = r := by
      rw [Memory.read_write hwf, if_pos rfl]
    exact (congrArg decode hread).trans hj

/-- Settles O18: the cell stored at the new `pc` is read back by the fetch, and lies inside the extent. -/
theorem storeIsSeenByTheNextFetch : Obligations.StoreIsSeenByTheNextFetch := by
  intro s j ha hwf hs hf
  constructor
  · intro i m0 m1 m2 r hb hi hr h0 h1 hd hj
    have hx : AboutToExecute s := ⟨ha, hs, fun _ => hf, fun h => by cases hb.symm.trans h⟩
    refine store_seen_of_f3Stores (m0 := m0) (m1 := m1) hx hwf hb hi ?_ hj
    have h0' : (s.withMach (s.mach.grow s.mach.pc)).mach.readable 0 m0 = true := by simpa using h0
    have h1' : (s.withMach (s.mach.grow s.mach.pc)).mach.readable 1 m1 = true := by simpa using h1
    have hd' : (s.withMach (s.mach.grow s.mach.pc)).mach.target 2 m2 = some (s.mach.pc + 4) := by simpa using hd
    rcases hr with ⟨rfl, rfl, hw⟩ | ⟨rfl, rfl, hw⟩ | ⟨rfl, rfl⟩ | ⟨rfl, rfl⟩
    · simpa using exec_add_ok h0' h1' hd' (by simpa using hw)
    · simpa using exec_mul_ok h0' h1' hd' (by simpa using hw)
    · simpa using exec_lt_ok h0' h1' hd'
    · simpa using exec_eq_ok h0' h1' hd'
  · intro m0 c v rest hi hd hc hq hj
    have hx : AboutToExecute s := ⟨ha, hs, fun _ => hf, fun _ => by
      rw [State.inputIsEmpty_eq hc, hq]
      rfl⟩
    refine ⟨_, machineStep_inp_of_cons hx hi hd hc hq, rfl, machineStep_of_covered ?_ ?_ ?_⟩
    · exact ⟨ha, hs, fun _ => hf, fun h => by cases h⟩
    · exact Mach.lt_extAfter_of_mem _ (by simp)
    · have hread : (s.mach.mem.write (s.mach.pc + 2) v).read (s.mach.pc + 2) = v := by
        rw [Memory.read_write hwf, if_pos rfl]
      exact (congrArg decode hread).trans hj

end Sys2Proof.Machine
end

section
/-! The host's operations (60_exceptions.md R142): what each answers and what the model refuses, and the settled
obligations. -/

namespace Sys2Proof.Machine

open Sys2Proof

/-! ### Channels -/

/-- Settles O46: the wiring has a next channel, so the operation is not refused. -/
theorem hostCreatesAnEmptyChannel : Obligations.HostCreatesAnEmptyChannel := fun _ h => if_pos h

theorem State.hostMayPush_of_ends {s : State} {ch : Nat} {e : Ends} (he : s.cfg.wiring.ends[ch]? = some e) :
    s.hostMayPush ch = true ↔ e.producer = .host ∨ e.consumer ≠ .host := by
  simp [State.hostMayPush, he]

theorem hostPush_ok {s : State} {ch : Nat} {c : Channel} {v : Int} (hc : s.chans[ch]? = some c)
    (hmay : s.hostMayPush ch = true) (hv : isWord s.cfg.xlen v = true) :
    hostPush ch v s = .next (s.setChannel ch (c.push v)) := by
  simp only [hostPush, hc, hmay, hv, if_true]

theorem hostPush_notAWord {s : State} {ch : Nat} {c : Channel} {v : Int} (hc : s.chans[ch]? = some c)
    (hmay : s.hostMayPush ch = true) (hv : isWord s.cfg.xlen v = false) :
    hostPush ch v s = .refused .notAWord := by
  simp only [hostPush, hc, hmay, hv, if_true, if_neg Bool.false_ne_true]

theorem hostPush_notTheHostsEnd {s : State} {ch : Nat} {c : Channel} (v : Int) (hc : s.chans[ch]? = some c)
    (hmay : s.hostMayPush ch = false) : hostPush ch v s = .refused .notTheHostsEnd := by
  simp only [hostPush, hc, hmay, if_neg Bool.false_ne_true]

/-- Settles O48: the wiring lets the host push there, and the value is a word. -/
theorem hostPushAppends : Obligations.HostPushAppends := fun _ _ _ _ _ hc he hends hv =>
  hostPush_ok hc ((State.hostMayPush_of_ends he).2 hends) hv

theorem hostPop_notTheHostsEnd {s : State} {ch : Nat} {c : Channel} (hc : s.chans[ch]? = some c)
    (hown : s.hostConsumes ch = false) : hostPop ch s = .refused .notTheHostsEnd := by
  simp only [hostPop, hc, hown, if_neg Bool.false_ne_true]

theorem hostTryPop_notTheHostsEnd {s : State} {ch : Nat} {c : Channel} (hc : s.chans[ch]? = some c)
    (hown : s.hostConsumes ch = false) : hostTryPop ch s = .refused .notTheHostsEnd := by
  simp only [hostTryPop, hc, hown, if_neg Bool.false_ne_true]

/-- The host's try_pop answers Empty exactly where its pop would wait (44_channel.md R94). -/
theorem hostTryPop_of_pop_none {s : State} {ch : Nat} {c : Channel} (hc : s.chans[ch]? = some c)
    (hown : s.hostConsumes ch = true) (h : c.pop = none) : hostTryPop ch s = .next (s.reply .empty) := by
  simp only [hostTryPop, hc, hown, h, if_true]

theorem hostTryPop_of_pop_some {s : State} {ch : Nat} {c c' : Channel} {v : Int} (hc : s.chans[ch]? = some c)
    (hown : s.hostConsumes ch = true) (h : c.pop = some (v, c')) :
    hostTryPop ch s = .next ((s.setChannel ch c').reply (.value v)) := by
  simp only [hostTryPop, hc, hown, h, if_true]

/-- Settles O51: on an end the host owns try_pop answers as the channel's own `pop` does. -/
theorem hostTryPopAnswersEmptyOnlyWhenEmpty : Obligations.HostTryPopAnswersEmptyOnlyWhenEmpty := by
  intro s ch c hc hown
  constructor
  · intro hempty
    exact hostTryPop_of_pop_none hc hown (c.pop_eq_none_iff.2 hempty)
  · intro v rest hq
    have hpop : c.pop = some (v, { c with q := rest }) := (c.pop_eq_some_iff _ v).2 hq
    exact hostTryPop_of_pop_some hc hown hpop

/-- An operation on a channel never created is refused. -/
theorem hostStep_noSuchChannel {s : State} {ch : Nat} (h : s.chans[ch]? = none) (v : Int) :
    hostStep (.push ch v) s = .refused .noSuchChannel ∧ hostStep (.pop ch) s = .refused .noSuchChannel ∧
      hostStep (.tryPop ch) s = .refused .noSuchChannel := by
  simp only [hostStep, hostPush, hostPop, hostTryPop, h, and_self]

/-! ### Machines -/

theorem hostSpawn_ok {s : State} {image : List Int} {inch outch : Nat} (hw : image.all (isWord s.cfg.xlen) = true)
    (hch : inch < s.chans.length ∧ outch < s.chans.length) (hwire : wiringOk s.cfg.wiring = true)
    (hbind : s.bindingAgrees inch outch = true) :
    hostSpawn image inch outch s =
      .next ((s.addMachine (Mach.spawned image inch outch)).reply (.handle s.machines.length)) := by
  simp only [hostSpawn, hw, if_true, if_pos hch, hwire, hbind, Bool.and_self]

theorem hostSpawn_wiringBroken {s : State} {image : List Int} {inch outch : Nat}
    (hw : image.all (isWord s.cfg.xlen) = true) (hch : inch < s.chans.length ∧ outch < s.chans.length)
    (h : wiringOk s.cfg.wiring = false ∨ s.bindingAgrees inch outch = false) :
    hostSpawn image inch outch s = .refused .wiringBroken := by
  have hand : (wiringOk s.cfg.wiring && s.bindingAgrees inch outch) = false := by
    rw [Bool.and_eq_false_iff]
    exact h
  simp only [hostSpawn, hw, if_true, if_pos hch, hand, if_neg Bool.false_ne_true]

theorem hostSpawn_noSuchChannel {s : State} {image : List Int} {inch outch : Nat}
    (hw : image.all (isWord s.cfg.xlen) = true) (h : s.chans.length ≤ inch ∨ s.chans.length ≤ outch) :
    hostSpawn image inch outch s = .refused .noSuchChannel := by
  have hch : ¬(inch < s.chans.length ∧ outch < s.chans.length) := by omega
  simp only [hostSpawn, hw, if_true, if_neg hch]

theorem hostSpawn_notAWord {s : State} {image : List Int} (inch outch : Nat)
    (hw : image.all (isWord s.cfg.xlen) = false) : hostSpawn image inch outch s = .refused .notAWord := by
  simp only [hostSpawn, hw, if_neg Bool.false_ne_true]

/-- A machine just spawned holds its image (10_state.md R26). -/
theorem Mach.cell_spawned (image : List Int) (inch outch a : Nat) :
    (Mach.spawned image inch outch).cell a = image[a]?.getD 0 := by
  have h := Memory.read_ofImage 0 a image
  rwa [Nat.zero_add] at h

/-- Settles O47: spawn adds `Mach.spawned`, whose memory is the image. -/
theorem spawnCreatesAMachineAtReset : Obligations.SpawnCreatesAMachineAtReset := by
  intro s image inch outch hw hin hout hwire hbind
  refine ⟨_, Mach.spawned image inch outch, hostSpawn_ok hw ⟨hin, hout⟩ hwire hbind, ?_⟩
  refine ⟨by simp, by simp, by simp, by simp, State.addMachine_later (s := s) (m := _), fun ha => ⟨?_, ?_⟩, by simp,
    by simp, Mach.cell_spawned image inch outch, Memory.wf_ofImage image, rfl, rfl, rfl, rfl, rfl, rfl, rfl, rfl, rfl,
    rfl, rfl⟩
  · simp [State.machines_eq_nil ha]
  · exact State.addMachine_first ha _

/-- An operation on a machine never spawned is refused. -/
theorem hostStep_noSuchMachine {s : State} {k : Nat} (h : s.machines.length ≤ k) :
    hostStep (.forceHalt k) s = .refused .noSuchMachine ∧ hostStep (.wait k) s = .refused .noSuchMachine ∧
      hostStep (.lastOutput k) s = .refused .noSuchMachine ∧ hostStep (.dump k) s = .refused .noSuchMachine := by
  simp only [hostStep, hostForceHalt, hostWait, hostLastOutput, hostDump, if_neg (Nat.not_lt.2 h),
    List.getElem?_eq_none h, and_self]

/-- Settles O50, one refusal after the other. -/
theorem hostOperationsRefused : Obligations.HostOperationsRefused := by
  intro s
  refine ⟨fun ch c v => hostPush_notAWord, fun ch c e v hc he hp hcons => hostPush_notTheHostsEnd v hc ?_,
    fun image inch outch => hostSpawn_notAWord inch outch,
    fun image inch outch hw hin hout => hostSpawn_wiringBroken hw ⟨hin, hout⟩,
    fun image inch outch => hostSpawn_noSuchChannel, fun hlen => if_neg (Nat.not_lt.2 hlen),
    fun ch c hc hown => ⟨hostPop_notTheHostsEnd hc hown, hostTryPop_notTheHostsEnd hc hown⟩,
    fun ch v hlen => hostStep_noSuchChannel (List.getElem?_eq_none hlen) v, fun k => hostStep_noSuchMachine⟩
  rw [← Bool.not_eq_true, State.hostMayPush_of_ends he]
  exact not_or.2 ⟨hp, not_not.2 hcons⟩

theorem hostForceHalt_ok {s : State} {k : Nat} (h : k < s.machines.length) :
    hostForceHalt k s = .next (s.modifyMachine k Mach.forceHalt) := if_pos h

/-- Settles O52: the operation modifies one machine. -/
theorem forceHaltSetsTheFlagOnly : Obligations.ForceHaltSetsTheFlagOnly := by
  intro s k hk
  obtain ⟨hcfg, hany, hchans, hsched, hreplies⟩ := s.modifyMachine_rest k Mach.forceHalt
  exact ⟨_, hostForceHalt_ok hk, s.machines_modifyMachine k _, s.modifyMachine_self k _, hcfg, hany, hchans, hsched,
    hreplies⟩

/-- Settles O53: the operation looks at the status only. -/
theorem waitReturnsWhenStopped : Obligations.WaitReturnsWhenStopped := by
  intro s k m hk
  refine ⟨fun hrun => ?_, fun hstop => ?_⟩
  · simp only [hostStep, hostWait, hk, if_pos hrun]
  · simp only [hostStep, hostWait, hk, if_neg hstop]
    rfl

/-- Settles O54: the reply is `Mach.lastOutput`, which looks at `outv`. -/
theorem lastOutputReadsTheRegister : Obligations.LastOutputReadsTheRegister := by
  intro s k m hk
  have hstep : hostStep (.lastOutput k) s = .next (s.reply (.lastOutput m.lastOutput)) := by
    simp only [hostStep, hostLastOutput, hk]
  rw [hstep]
  refine ⟨fun hv => ?_, fun hv => ?_⟩ <;> simp [Mach.lastOutput, hv, State.reply]

/-- Settles O55: the cells dumped are those of `0 .. ext-1`, in order. -/
theorem dumpReadsTheMemoryOfAStoppedMachine : Obligations.DumpReadsTheMemoryOfAStoppedMachine := by
  intro s k m hk
  refine ⟨fun hrun => ?_, fun hstop => ⟨m.cells, ?_, by simp [Mach.cells], fun a ha => ?_⟩⟩
  · simp only [hostStep, hostDump, hk, if_pos hrun]
  · simp only [hostStep, hostDump, hk, if_neg hstop]
    rfl
  · simp [Mach.cells, List.getElem?_range ha]

/-- Settles O56: a host operation leaves the machines, adds one behind them, or sets one flag. -/
theorem hostChangesOnlyForceHalt : Obligations.HostChangesOnlyForceHalt := by
  intro op s t k m h hk
  obtain ⟨hcfg, hsched, hfocus, hm⟩ := hostStep_machines h
  refine ⟨(hfocus (State.anyMachine_of_getElem hk)).1, hcfg, hsched, ?_⟩
  obtain hm | ⟨image, i, o, -, -, -, hm, -⟩ | ⟨j, hm, -⟩ := hm
  · exact .inl (hm ▸ hk)
  · left
    rw [hm, List.getElem?_append_left (List.getElem?_eq_some_iff.1 hk).1, hk]
  · rw [hm, List.getElem?_modify, hk]
    by_cases hj : j = k
    · right
      simp only [if_pos hj]
      rfl
    · left
      simp only [if_neg hj]
      rfl

/-- Settles O45: the head of the schedule is the event. -/
theorem scheduleRunsTheHostOperation : Obligations.ScheduleRunsTheHostOperation := fun _ _ _ =>
  step_of_schedule_cons

end Sys2Proof.Machine
end

section
/-! Events, and what they do to the machines and the channels (60_exceptions.md R118, R119, 44_channel.md), and the
settled obligations. -/

namespace Sys2Proof.Machine

open Sys2Proof

/-! ### A machine's step and an event, at the places of the machines -/

theorem SameSurroundings.self_eq {s t : State} (h : SameSurroundings s t) : t.self = s.self := by
  rw [State.self, State.self, h.before]

/-- A machine's step changes no place but its own. -/
theorem machineStep_machines {s t : State} (h : machineStep s = .next t) (k : Nat) :
    t.machines[k]? = if k = s.self then some t.mach else s.machines[k]? := by
  have hsur := machineStepLeavesTheRestAlone s t h
  have ha := (machineStep_running h).1
  have hmachines : t.machines = (s.withMach t.mach).machines := by
    rw [State.machines_eq (hsur.anyMachine.trans ha), State.machines_eq (s := s.withMach t.mach) ha, hsur.before,
      hsur.after]
    rfl
  rw [hmachines, State.machines_withMach ha]

theorem State.focus_of_getElem {s : State} {k : Nat} {m : Mach} (h : s.machines[k]? = some m) :
    ∃ f, s.focus k = some f ∧ f.mach = m := by
  obtain ⟨f, hf⟩ := Option.isSome_iff_exists.1 ((s.focus_isSome_iff k).2 (List.getElem?_eq_some_iff.1 h).1)
  obtain ⟨hm, -⟩ := State.focus_eq_some hf
  exact ⟨f, hf, Option.some.inj (hm.symm.trans h)⟩

theorem State.focus_eq_none {s : State} {k : Nat} (h : s.machines[k]? = none) : s.focus k = none := by
  rw [← Option.not_isSome_iff_eq_none, State.focus_isSome_iff]
  exact Nat.not_lt.2 (List.getElem?_eq_none_iff.1 h)

/-- An event that runs a machine steps it in the same system with that machine in focus. -/
theorem eventStep_run_cases {s t : State} {k : Nat} (h : eventStep (.run k) s = .next t) :
    ∃ f, s.focus k = some f ∧ f.self = k ∧ SameSystem s f ∧ machineStep f = .next t := by
  simp only [eventStep] at h
  split at h
  · cases h
  · rename_i f hf
    obtain ⟨-, -, hself, -⟩ := State.focus_eq_some hf
    exact ⟨f, hf, hself, State.sameSystem_focus hf, h⟩

/-- An event that runs machine `k` changes no place but `k`. -/
theorem eventStep_run_machines {s t : State} {k : Nat} (h : eventStep (.run k) s = .next t) (j : Nat) :
    t.machines[j]? = if j = k then some t.mach else s.machines[j]? := by
  obtain ⟨f, -, hself, hsame, hstep⟩ := eventStep_run_cases h
  rw [machineStep_machines hstep, hself, hsame.machines]

theorem eventStep_run_self {s t : State} {k : Nat} (h : eventStep (.run k) s = .next t) : t.self = k := by
  obtain ⟨f, -, hself, -, hstep⟩ := eventStep_run_cases h
  rw [(machineStepLeavesTheRestAlone f t hstep).self_eq, hself]

theorem machines_length_of_getElem {l l' : List Mach} {k : Nat} {m : Mach} (hk : k < l.length)
    (h : ∀ j : Nat, l'[j]? = if j = k then some m else l[j]?) : l'.length = l.length := by
  have hiff : ∀ j, l'.length ≤ j ↔ l.length ≤ j := by
    intro j
    rw [← List.getElem?_eq_none_iff, h j]
    by_cases hj : j = k <;> simp [hj, hk]
  have h1 := hiff l.length
  have h2 := hiff l'.length
  omega

theorem eventStep_run_machines_length {s t : State} {k : Nat} (h : eventStep (.run k) s = .next t) :
    t.machines.length = s.machines.length := by
  obtain ⟨f, hf, -⟩ := eventStep_run_cases h
  refine machines_length_of_getElem ?_ (eventStep_run_machines h)
  rw [← State.focus_isSome_iff, hf]
  rfl

/-- An event changes neither the parameters nor the events to come. -/
theorem eventStep_cfg_schedule {e : Event} {s t : State} (h : eventStep e s = .next t) :
    t.cfg = s.cfg ∧ t.schedule = s.schedule := by
  cases e with
  | run k =>
    obtain ⟨f, -, -, hsame, hstep⟩ := eventStep_run_cases h
    have hsur := machineStepLeavesTheRestAlone f t hstep
    exact ⟨hsur.cfg.trans hsame.cfg.symm, hsur.schedule.trans hsame.schedule.symm⟩
  | host op =>
    obtain ⟨hcfg, hsched, -⟩ := hostStep_machines h
    exact ⟨hcfg, hsched⟩

/-- A step of the system takes one event from the schedule. -/
theorem step_schedule {s t : State} (h : step s = .next t) : t.schedule = s.schedule.tail := by
  obtain ⟨e, u, -, he, hsame⟩ := step_next_cases h
  rw [← hsame.schedule, (eventStep_cfg_schedule he).2]

/-! ### What happens to the channels -/

theorem FifoStep.refl (c : Channel) : FifoStep c c := .inl rfl

/-- One channel changed first in, first out: every channel is. -/
theorem fifoStep_set {l : List Channel} {k ch : Nat} {c0 c0' c : Channel} (hk : l[k]? = some c0) (h : FifoStep c0 c0')
    (hc : l[ch]? = some c) : ∃ c', (l.set k c0')[ch]? = some c' ∧ FifoStep c c' := by
  by_cases hch : ch = k
  · subst hch
    cases hk.symm.trans hc
    exact ⟨c0', getElem?_set_of_some hc _, h⟩
  · exact ⟨c, by rw [List.getElem?_set_ne (Ne.symm hch), hc], .refl c⟩

theorem machineStep_fifo {s t : State} {ch : Nat} {c : Channel} (h : machineStep s = .next t)
    (hc : s.chans[ch]? = some c) : ∃ c', t.chans[ch]? = some c' ∧ FifoStep c c' := by
  obtain ht | ⟨c0, v, rest, h0, hq, ht⟩ | ⟨c0, v, h0, ht⟩ := machineStep_chans h <;> rw [ht]
  · exact ⟨c, hc, .refl c⟩
  · exact fifoStep_set h0 (.inr (.inr ⟨v, hq⟩)) hc
  · exact fifoStep_set h0 (.inr (.inl ⟨v, rfl⟩)) hc

theorem hostStep_fifo {op : HostOp} {s t : State} {ch : Nat} {c : Channel} (h : hostStep op s = .next t)
    (hc : s.chans[ch]? = some c) : ∃ c', t.chans[ch]? = some c' ∧ FifoStep c c' := by
  obtain ht | ⟨ht, -⟩ | ⟨k, c0, v, h0, -, ht⟩ | ⟨k, c0, v, rest, h0, hq, ht⟩ := hostStep_chans h <;> rw [ht]
  · exact ⟨c, hc, .refl c⟩
  · exact ⟨c, by rw [List.getElem?_append_left (List.getElem?_eq_some_iff.1 hc).1, hc], .refl c⟩
  · exact fifoStep_set h0 (.inr (.inl ⟨v, rfl⟩)) hc
  · exact fifoStep_set h0 (.inr (.inr ⟨v, hq⟩)) hc

theorem eventStep_fifo {e : Event} {s t : State} {ch : Nat} {c : Channel} (h : eventStep e s = .next t)
    (hc : s.chans[ch]? = some c) : ∃ c', t.chans[ch]? = some c' ∧ FifoStep c c' := by
  cases e with
  | run k =>
    obtain ⟨f, -, -, hsame, hstep⟩ := eventStep_run_cases h
    exact machineStep_fifo hstep (hsame.chans ▸ hc)
  | host op => exact hostStep_fifo h hc

/-- Settles O39: a step is an event, and an event pushes once, pops once, or leaves the channels. -/
theorem stepsKeepChannelsInOrder : Obligations.StepsKeepChannelsInOrder := by
  intro s t ch c h hc
  obtain ⟨e, u, -, he, hsame⟩ := step_next_cases h
  rw [← hsame.cfg, ← hsame.chans]
  exact ⟨(eventStep_cfg_schedule he).1, eventStep_fifo he hc⟩

/-- Settles O40: the one pop is at the input port and the one push at the output port. -/
theorem machineTouchesOnlyItsPorts : Obligations.MachineTouchesOnlyItsPorts := by
  intro s t ch c h hc
  have kept : ∀ c', c' = c → (ch ≠ s.mach.inch → ∃ pushed, c'.q = c.q ++ pushed) ∧
      (ch ≠ s.mach.outch → ∃ popped, c.q = popped ++ c'.q) ∧ (ch ≠ s.mach.inch → ch ≠ s.mach.outch → c' = c) := by
    rintro c' rfl
    exact ⟨fun _ => ⟨[], by simp⟩, fun _ => ⟨[], rfl⟩, fun _ _ => rfl⟩
  obtain ht | ⟨c0, v, rest, h0, hq, ht⟩ | ⟨c0, v, h0, ht⟩ := machineStep_chans h <;> rw [ht]
  · exact ⟨c, hc, kept c rfl⟩
  · by_cases hch : ch = s.mach.inch
    · subst hch
      cases h0.symm.trans hc
      exact ⟨_, getElem?_set_of_some hc _, fun hne => absurd rfl hne, fun _ => ⟨[v], hq⟩, fun hne => absurd rfl hne⟩
    · exact ⟨c, by rw [List.getElem?_set_ne (Ne.symm hch), hc], kept c rfl⟩
  · by_cases hch : ch = s.mach.outch
    · subst hch
      cases h0.symm.trans hc
      exact ⟨_, getElem?_set_of_some hc _, fun _ => ⟨[v], rfl⟩, fun hne => absurd rfl hne, fun _ hne => absurd rfl hne⟩
    · exact ⟨c, by rw [List.getElem?_set_ne (Ne.symm hch), hc], kept c rfl⟩

/-- A channel at no port of the machine is as before its step, and so is its absence. -/
theorem machineStep_chans_of_ne {s t : State} {ch : Nat} (h : machineStep s = .next t) (hin : ch ≠ s.mach.inch)
    (hout : ch ≠ s.mach.outch) : t.chans[ch]? = s.chans[ch]? := by
  obtain ht | ⟨c0, v, rest, -, -, ht⟩ | ⟨c0, v, -, ht⟩ := machineStep_chans h <;> rw [ht]
  · exact List.getElem?_set_ne (Ne.symm hin)
  · exact List.getElem?_set_ne (Ne.symm hout)

theorem machineStep_chans_length {s t : State} (h : machineStep s = .next t) : t.chans.length = s.chans.length := by
  obtain ht | ⟨c0, v, rest, -, -, ht⟩ | ⟨c0, v, -, ht⟩ := machineStep_chans h <;> rw [ht]
  · exact List.length_set
  · exact List.length_set

/-! ### Two systems that a machine cannot tell apart -/

/-- Two steps that touch no channel and leave the machine alike have the same effect. -/
theorem sameEffect_of_chans_eq {s t s' t' : State} (hin : s.inChannel = s'.inChannel) (hs : SameSurroundings s t)
    (hs' : SameSurroundings s' t') (hm : t.mach = t'.mach) (hc : t.chans = s.chans) (hc' : t'.chans = s'.chans) :
    SameEffect s t s' t' where
  mach := hm
  input := by
    rw [State.inChannel, State.inChannel, hc, hc', hs.inch, hs'.inch]
    exact hin
  output _ := by
    refine ⟨[], fun c hout => ?_, fun c hout => ?_⟩
    · rw [List.append_nil, State.outChannel, hc, hs.outch]
      exact hout
    · rw [List.append_nil, State.outChannel, hc', hs'.outch]
      exact hout

/-- Two instructions that end with the same result for the machine, or the same fault. -/
theorem sameForMachine_finish {s s' : State} {i : Instr} {e : Eval Unit} (hin : s.inChannel = s'.inChannel)
    (h : exec i s = s.finish e) (h' : exec i s' = s'.finish e) : sameForMachine s s' (exec i s) (exec i s') := by
  have hsur : ∀ u m, exec i u = .next (u.withMach m) → SameSurroundings u (u.withMach m) := fun u m hu =>
    (exec_next_cases hu).sameSurroundings
  cases e with
  | ok v m =>
    rw [State.finish_ok] at h h'
    rw [h, h']
    exact sameEffect_of_chans_eq hin (hsur s _ h) (hsur s' _ h') rfl rfl rfl
  | raised c m =>
    rw [State.finish_raised] at h h'
    rw [h, h']
    exact sameEffect_of_chans_eq hin (hsur s _ h) (hsur s' _ h') rfl rfl rfl

section
variable {s s' : State} (hcfg : s.cfg = s'.cfg) (hm : s.mach = s'.mach) (hin : s.inChannel = s'.inChannel)
  (hout : s.outChannel.isSome = s'.outChannel.isSome)
include hm hin

/-- IN looks at the machine and its input channel only (41_io.md R79). -/
theorem exec_inp_sameForMachine (m0 : Mode) : sameForMachine s s' (exec (.inp m0) s) (exec (.inp m0) s') := by
  cases hd : s.mach.target 0 m0 with
  | none =>
    refine sameForMachine_finish hin (e := .raised (if m0 = .immediate then .addressing else .negativeAddress)
      (s.mach.growAll [s.mach.litCell 0])) ?_ ?_
    · simp only [exec, execIn_eq, hd, State.finish_raised_growAll]
    · rw [hm, State.finish_raised_growAll]
      simp only [exec, execIn_eq, ← hm, hd]
  | some d =>
    have hd' : s'.mach.target 0 m0 = some d := hm ▸ hd
    cases hc : s.inChannel with
    | none =>
      have hc' : s'.inChannel = none := hin ▸ hc
      simp only [exec, execIn_eq, hd, hd', inputAt, hc, hc']
      rfl
    | some c =>
      have hc' : s'.inChannel = some c := hin ▸ hc
      cases hq : c.q with
      | nil =>
        cases hb : s.mach.blk with
        | true =>
          rw [exec_inp_holds hd hc hq hb, exec_inp_holds hd' hc' hq (hm ▸ hb)]
          rfl
        | false =>
          rw [exec_inp_enters_wait hd hc hq hb, exec_inp_enters_wait hd' hc' hq (hm ▸ hb)]
          refine sameEffect_of_chans_eq hin ?_ ?_ ?_ rfl rfl
          · constructor <;> rfl
          · constructor <;> rfl
          · simp only [State.withMach_mach, hm]
      | cons v rest =>
        rw [exec_inp_of_cons hd hc hq, exec_inp_of_cons hd' hc' hq]
        refine ⟨?_, ?_, fun hne => ⟨[], fun c0 h0 => ?_, fun c0 h0 => ?_⟩⟩
        · simp only [State.withMach_mach, hm]
        · exact (getElem?_set_of_some hc _).trans (getElem?_set_of_some hc' _).symm
        · rw [List.append_nil]
          exact (List.getElem?_set_ne hne).trans h0
        · rw [List.append_nil]
          exact (List.getElem?_set_ne (hm ▸ hne)).trans h0

include hout

/-- OUT looks at the machine only, and pushes its operand (41_io.md R80). -/
theorem exec_out_sameForMachine (m0 : Mode) : sameForMachine s s' (exec (.out m0) s) (exec (.out m0) s') := by
  cases h0 : s.mach.readable 0 m0 with
  | false =>
    refine sameForMachine_finish hin (e := .raised .negativeAddress (s.mach.growAll [s.mach.litCell 0])) ?_ ?_
    · rw [exec_out_fault h0, State.finish_raised_growAll]
    · rw [hm, exec_out_fault (hm ▸ h0), State.finish_raised_growAll]
  | true =>
    have h0' : s'.mach.readable 0 m0 = true := hm ▸ h0
    cases hc : s.outChannel with
    | none =>
      have hc' : s'.outChannel = none := by
        rw [hc] at hout
        exact Option.not_isSome_iff_eq_none.1 (by simp [← hout])
      simp only [exec, execOut_eq, h0, h0', if_true, outputOf, hc, hc']
      rfl
    | some c =>
      obtain ⟨c', hc'⟩ : ∃ c', s'.outChannel = some c' := by
        rw [hc] at hout
        exact Option.isSome_iff_exists.1 hout.symm
      rw [exec_out_ok h0 hc, exec_out_ok h0' hc']
      refine ⟨?_, ?_, fun hne => ⟨[s.mach.value 0 m0], fun c0 hc0 => ?_, fun c0 hc0 => ?_⟩⟩
      · simp only [State.withMach_mach, hm]
      · have hin' : s.chans[s.mach.inch]? = s'.chans[s.mach.inch]? := by
          simpa only [State.inChannel, ← hm] using hin
        have hcs' : s'.chans[s.mach.outch]? = some c' := by
          rw [hm]
          exact hc'
        show (s.chans.set s.mach.outch _)[s.mach.inch]? = (s'.chans.set s'.mach.outch _)[s'.mach.inch]?
        rw [← hm]
        by_cases hring : s.mach.outch = s.mach.inch
        · rw [← hring] at hin' ⊢
          rw [getElem?_set_of_some hc, getElem?_set_of_some hcs']
          cases hc.symm.trans (hin'.trans hcs')
          rfl
        · rw [List.getElem?_set_ne hring, List.getElem?_set_ne hring, hin']
      · cases hc.symm.trans hc0
        exact getElem?_set_of_some hc _
      · cases hc'.symm.trans hc0
        rw [hm]
        exact getElem?_set_of_some hc' _

include hcfg

/-- What an instruction does to the machine depends on the machine, the parameters and the input channel. -/
theorem exec_sameForMachine (i : Instr) : sameForMachine s s' (exec i s) (exec i s') := by
  cases i with
  | add m0 m1 m2 =>
    exact sameForMachine_finish hin (e := evalF3 (aluAdd s.cfg.xlen) m0 m1 m2 s.mach) rfl (by rw [hcfg, hm]; rfl)
  | mul m0 m1 m2 =>
    exact sameForMachine_finish hin (e := evalF3 (aluMul s.cfg.xlen) m0 m1 m2 s.mach) rfl (by rw [hcfg, hm]; rfl)
  | lt m0 m1 m2 =>
    exact sameForMachine_finish hin (e := evalF3 (fun a b => .ok (aluLt a b)) m0 m1 m2 s.mach) rfl (by rw [hm]; rfl)
  | eq m0 m1 m2 =>
    exact sameForMachine_finish hin (e := evalF3 (fun a b => .ok (aluEq a b)) m0 m1 m2 s.mach) rfl (by rw [hm]; rfl)
  | jt m0 m1 =>
    exact sameForMachine_finish hin (e := evalJump (fun c => decide (c ≠ 0)) m0 m1 s.mach) rfl (by rw [hm]; rfl)
  | jf m0 m1 =>
    exact sameForMachine_finish hin (e := evalJump (fun c => decide (c = 0)) m0 m1 s.mach) rfl (by rw [hm]; rfl)
  | arb m0 => exact sameForMachine_finish hin (e := evalArb s.cfg.xlen m0 s.mach) rfl (by rw [hcfg, hm]; rfl)
  | hlt => exact sameForMachine_finish hin (e := .ok () s.mach.halt) rfl (by rw [hm]; rfl)
  | inp m0 => exact exec_inp_sameForMachine hm hin m0
  | out m0 => exact exec_out_sameForMachine hm hin hout m0

end

/-- The effect of a step is the same said of the states before the fetch. -/
theorem sameForMachine_of_grow {s s' : State} {a a' : Nat} {o o' : Host.Outcome State Fault Refusal}
    (h : sameForMachine (s.withMach (s.mach.grow a)) (s'.withMach (s'.mach.grow a')) o o') :
    sameForMachine s s' o o' := by
  cases o <;> cases o'
  case next.next => exact { h with }
  all_goals exact h

theorem sameForMachine_fault (s s' : State) (f : Fault) : sameForMachine s s' (.fault f) (.fault f) := rfl

/-- Settles O42: the fetch and the decoder look at the machine only, and so does each instruction but for its input
channel. -/
theorem machineSeesOnlyItsInput : Obligations.MachineSeesOnlyItsInput := by
  intro s s' ha hcfg hm hin hout
  have hhalt : sameForMachine s s' (.next (s.withMach s.mach.halt)) (.next (s'.withMach s.mach.halt)) := by
    refine sameEffect_of_chans_eq hin ?_ ?_ rfl rfl rfl
    · constructor <;> rfl
    · constructor <;> simp [hm]
  have hcycle : sameForMachine s s' (cycle s) (cycle s') := by
    cases hw : decode (s.mach.cell s.mach.pc) with
    | ok i =>
      rw [cycle_of_ok hw, cycle_of_ok (hm ▸ hw)]
      refine sameForMachine_of_grow (exec_sameForMachine (s := s.withMach (s.mach.grow s.mach.pc))
        (s' := s'.withMach (s'.mach.grow s'.mach.pc)) hcfg ?_ hin hout i)
      simp only [State.withMach_mach, hm]
    | error e =>
      rw [cycle_of_error hw, cycle_of_error (hm ▸ hw)]
      refine sameEffect_of_chans_eq hin ?_ ?_ ?_ rfl rfl
      · constructor <;> rfl
      · constructor <;> rfl
      · simp only [State.withMach_mach, hm]
  have hempty : s.inputIsEmpty = s'.inputIsEmpty := by simp only [State.inputIsEmpty, hin]
  unfold machineStep
  rw [← ha, ← hm, ← hempty]
  cases s.anyMachine
  · exact sameForMachine_fault s s' _
  cases s.mach.status
  case halted => exact sameForMachine_fault s s' _
  case faulted => exact sameForMachine_fault s s' _
  case running =>
    cases s.mach.blk
    · cases s.mach.fh
      · exact hcycle
      · exact hhalt
    · cases s.inputIsEmpty
      · exact hcycle
      · exact sameForMachine_fault s s' _

end Sys2Proof.Machine
end

section
/-! Several machines and the schedule (60_exceptions.md R116, R119): steps of two machines that are not wired to each
other commute, and every order of events is that of a schedule. -/

namespace Sys2Proof.Machine

open Sys2Proof

/-! ### Two machines that are not wired to each other -/

/-- Machines `m` and `m'` have no channel in common: they share no end of one (44_channel.md R91), and neither feeds the
other. -/
structure Unconnected (m m' : Mach) : Prop where
  inch : m.inch ≠ m'.inch
  outch : m.outch ≠ m'.outch
  feeds : m.outch ≠ m'.inch
  fed : m.inch ≠ m'.outch

theorem Unconnected.symm {m m' : Mach} (h : Unconnected m m') : Unconnected m' m :=
  ⟨h.inch.symm, h.outch.symm, h.fed.symm, h.feeds.symm⟩

/-- A step of machine `i` from `s` to `t`, seen from the system: everything but the machine and its two channels is as
before. -/
structure MachineMoves (i : Nat) (m : Mach) (s t : State) : Prop where
  machines : ∀ j : Nat, t.machines[j]? = if j = i then some t.mach else s.machines[j]?
  chans : ∀ ch, ch ≠ m.inch → ch ≠ m.outch → t.chans[ch]? = s.chans[ch]?
  inch : t.mach.inch = m.inch
  outch : t.mach.outch = m.outch
  cfg : t.cfg = s.cfg
  anyMachine : t.anyMachine = s.anyMachine
  schedule : t.schedule = s.schedule
  replies : t.replies = s.replies

theorem machineMoves_of_eventStep {s t : State} {i : Nat} {m : Mach} (hm : s.machines[i]? = some m)
    (h : eventStep (.run i) s = .next t) : MachineMoves i m s t := by
  obtain ⟨f, hf, -, hsame, hstep⟩ := eventStep_run_cases h
  obtain ⟨hget, -⟩ := State.focus_eq_some hf
  have hfm : f.mach = m := Option.some.inj (hget.symm.trans hm)
  have hsur := machineStepLeavesTheRestAlone f t hstep
  subst hfm
  exact {
    machines := eventStep_run_machines h
    chans := fun ch hin hout => by rw [machineStep_chans_of_ne hstep hin hout, hsame.chans]
    inch := hsur.inch
    outch := hsur.outch
    cfg := hsur.cfg.trans hsame.cfg.symm
    anyMachine := hsur.anyMachine.trans hsame.anyMachine.symm
    schedule := hsur.schedule.trans hsame.schedule.symm
    replies := hsur.replies.trans hsame.replies.symm }

/-- A machine that can step from `s` can step, with the same effect, after a machine that is not wired to it has. -/
theorem step_after_unconnected {s s1 s2 : State} {i j : Nat} {mi mj : Mach} (hij : i ≠ j)
    (hi : s.machines[i]? = some mi) (hj : s.machines[j]? = some mj) (hun : Unconnected mi mj)
    (hbound : mj.outch < s.chans.length)
    (h1 : eventStep (.run i) s = .next s1) (h2 : eventStep (.run j) s = .next s2) :
    ∃ t1, eventStep (.run j) s1 = .next t1 ∧ MachineMoves j mj s1 t1 ∧ t1.mach = s2.mach ∧
      ∀ ch, ch = mj.inch ∨ ch = mj.outch → t1.chans[ch]? = s2.chans[ch]? := by
  have hmove := machineMoves_of_eventStep hi h1
  have hj1 : s1.machines[j]? = some mj := by rw [hmove.machines, if_neg hij.symm, hj]
  obtain ⟨f, hf, -, hsame, hstep⟩ := eventStep_run_cases h2
  obtain ⟨hget, -⟩ := State.focus_eq_some hf
  have hfm : f.mach = mj := Option.some.inj (hget.symm.trans hj)
  obtain ⟨g, hg, hgm⟩ := State.focus_of_getElem hj1
  have hsame' := State.sameSystem_focus hg
  have hchan : ∀ ch, ch = mj.inch ∨ ch = mj.outch → f.chans[ch]? = g.chans[ch]? := by
    rintro ch (rfl | rfl)
    · rw [← hsame.chans, ← hsame'.chans, hmove.chans _ hun.inch.symm hun.feeds.symm]
    · rw [← hsame.chans, ← hsame'.chans, hmove.chans _ hun.fed.symm hun.outch.symm]
  have hin : f.inChannel = g.inChannel := by
    rw [State.inChannel, State.inChannel, hgm, hfm]
    exact hchan _ (.inl rfl)
  have hout : f.outChannel = g.outChannel := by
    rw [State.outChannel, State.outChannel, hgm, hfm]
    exact hchan _ (.inr rfl)
  have heffect := machineSeesOnlyItsInput f g
    (by rw [← hsame.anyMachine, ← hsame'.anyMachine, hmove.anyMachine])
    (by rw [← hsame.cfg, ← hsame'.cfg, hmove.cfg]) (hfm.trans hgm.symm) hin (by rw [hout])
  rw [hstep] at heffect
  cases ho : machineStep g with
  | fault r => rw [ho] at heffect; exact heffect.elim
  | refused r => rw [ho] at heffect; exact heffect.elim
  | next t1 =>
    rw [ho] at heffect
    have heff : SameEffect f s2 g t1 := heffect
    have h2' : eventStep (.run j) s1 = .next t1 := (eventStep_run hg).trans ho
    have hmove2 := machineMoves_of_eventStep hj h2
    have hmove1 := machineMoves_of_eventStep hj1 h2'
    refine ⟨t1, h2', hmove1, heff.mach.symm, ?_⟩
    have hinput : t1.chans[mj.inch]? = s2.chans[mj.inch]? := by
      have := heff.input.symm
      rwa [State.inChannel, State.inChannel, hmove1.inch, hmove2.inch] at this
    rintro ch (rfl | rfl)
    · exact hinput
    · by_cases hring : mj.inch = mj.outch
      · exact hring ▸ hinput
      · obtain ⟨c, hc⟩ : ∃ c, f.outChannel = some c := by
          rw [hsame.chans] at hbound
          exact ⟨_, by rw [State.outChannel, hfm]; exact List.getElem?_eq_getElem hbound⟩
        obtain ⟨pushed, hp, hp'⟩ := heff.output (hfm.symm ▸ hring)
        have houtput := (hp' c (hout ▸ hc)).trans (hp c hc).symm
        rwa [State.outChannel, State.outChannel, hmove1.outch, hmove2.outch] at houtput

/-- Settles O43: each machine's step has the same effect before and after the other's, on itself and on its two
channels, and neither touches the other's. -/
theorem unconnectedMachinesCommute : Obligations.UnconnectedMachinesCommute := by
  intro s s1 s2 i j mi mj hinv hij hi hj hfeeds hfed h1 h2
  obtain ⟨hinne, houtne⟩ := hinv.ownEnds i j mi mj hij hi hj
  have hun : Unconnected mi mj := ⟨hinne, houtne, hfeeds, hfed.symm⟩
  have hs1 := machineMoves_of_eventStep hi h1
  have hs2 := machineMoves_of_eventStep hj h2
  obtain ⟨t1, ht1, hm1, hmach1, hchan1⟩ := step_after_unconnected hij hi hj hun (hinv.machInv j mj hj).outBound h1 h2
  obtain ⟨t2, ht2, hm2, hmach2, hchan2⟩ :=
    step_after_unconnected hij.symm hj hi hun.symm (hinv.machInv i mi hi).outBound h2 h1
  refine ⟨t1, t2, ht1, ht2, ?_, ?_, ?_, ?_, ?_, ?_⟩
  · rw [hm1.cfg, hs1.cfg, hm2.cfg, hs2.cfg]
  · rw [hm1.anyMachine, hs1.anyMachine, hm2.anyMachine, hs2.anyMachine]
  · refine List.ext_getElem? fun k => ?_
    rw [hm1.machines, hs1.machines, hm2.machines, hs2.machines, hmach1, hmach2]
    by_cases hki : k = i
    · rw [if_pos hki, if_neg (hki ▸ hij), if_pos hki]
    · rw [if_neg hki, if_neg hki]
  · refine List.ext_getElem? fun ch => ?_
    by_cases hj : ch = mj.inch ∨ ch = mj.outch
    · have hne : ch ≠ mi.inch ∧ ch ≠ mi.outch := by
        rcases hj with rfl | rfl
        · exact ⟨hun.inch.symm, hun.feeds.symm⟩
        · exact ⟨hun.fed.symm, hun.outch.symm⟩
      rw [hchan1 ch hj, hm2.chans ch hne.1 hne.2]
    · obtain ⟨hjin, hjout⟩ := not_or.1 hj
      rw [hm1.chans ch hjin hjout]
      by_cases hi : ch = mi.inch ∨ ch = mi.outch
      · rw [hchan2 ch hi]
      · obtain ⟨hiin, hiout⟩ := not_or.1 hi
        rw [hs1.chans ch hiin hiout, hm2.chans ch hiin hiout, hs2.chans ch hjin hjout]
  · rw [hm1.schedule, hs1.schedule, hm2.schedule, hs2.schedule]
  · rw [hm1.replies, hs1.replies, hm2.replies, hs2.replies]

/-! ### The schedule -/

/-- The state with other events to come. -/
def State.withSchedule (s : State) (l : List Event) : State := { s with schedule := l }

/-- An outcome whose next state is changed by `f`. -/
def onNext (f : State → State) (o : Host.Outcome State Fault Refusal) : Host.Outcome State Fault Refusal :=
  match o with
  | .next t => .next (f t)
  | .fault r => .fault r
  | .refused r => .refused r

@[simp] theorem onNext_next (f : State → State) (t : State) : onNext f (.next t) = .next (f t) := rfl
@[simp] theorem onNext_fault (f : State → State) (r : Fault) : onNext f (.fault r) = .fault r := rfl
@[simp] theorem onNext_refused (f : State → State) (r : Refusal) : onNext f (.refused r) = .refused r := rfl

theorem onNext_ite (f : State → State) (p : Prop) [Decidable p] (o o' : Host.Outcome State Fault Refusal) :
    onNext f (if p then o else o') = if p then onNext f o else onNext f o' := apply_ite (onNext f) p o o'

section
variable (s : State) (l : List Event)

@[simp] theorem State.withSchedule_mach : (s.withSchedule l).mach = s.mach := rfl
@[simp] theorem State.withSchedule_chans : (s.withSchedule l).chans = s.chans := rfl
@[simp] theorem State.withSchedule_anyMachine : (s.withSchedule l).anyMachine = s.anyMachine := rfl
@[simp] theorem State.withSchedule_machines : (s.withSchedule l).machines = s.machines := rfl
@[simp] theorem State.withSchedule_inChannel : (s.withSchedule l).inChannel = s.inChannel := rfl
@[simp] theorem State.withSchedule_outChannel : (s.withSchedule l).outChannel = s.outChannel := rfl

theorem State.finish_withSchedule (e : Eval Unit) :
    (s.withSchedule l).finish e = onNext (·.withSchedule l) (s.finish e) := by
  cases e <;> rfl

/-- No instruction looks at the events to come. -/
theorem exec_withSchedule (i : Instr) : exec i (s.withSchedule l) = onNext (·.withSchedule l) (exec i s) := by
  cases i with
  | inp m0 =>
    simp only [exec, execIn_eq, State.withSchedule_mach]
    cases s.mach.target 0 m0 with
    | none => rfl
    | some d =>
      cases hc : s.inChannel with
      | none => simp only [inputAt, State.withSchedule_inChannel, hc, onNext_refused]
      | some c =>
        simp only [inputAt, State.withSchedule_inChannel, hc]
        cases c.pop with
        | none => cases hb : (s.mach.growAll [s.mach.litCell 0]).blk <;> rfl
        | some r => rfl
  | out m0 =>
    simp only [exec, execOut_eq, State.withSchedule_mach]
    cases hc : s.outChannel with
    | none =>
      simp only [outputOf, State.withSchedule_outChannel, hc, onNext_ite]
      rfl
    | some c =>
      simp only [outputOf, State.withSchedule_outChannel, hc, onNext_ite]
      rfl
  | hlt => rfl
  | _ => exact State.finish_withSchedule s l _

theorem cycle_withSchedule : cycle (s.withSchedule l) = onNext (·.withSchedule l) (cycle s) := by
  cases hw : decode (s.mach.cell s.mach.pc) with
  | ok i =>
    rw [cycle_of_ok hw, cycle_of_ok (s := s.withSchedule l) hw]
    exact exec_withSchedule (s.withMach (s.mach.grow s.mach.pc)) l i
  | error e =>
    rw [cycle_of_error hw, cycle_of_error (s := s.withSchedule l) hw]
    rfl

theorem machineStep_withSchedule : machineStep (s.withSchedule l) = onNext (·.withSchedule l) (machineStep s) := by
  have hempty : (s.withSchedule l).inputIsEmpty = s.inputIsEmpty := rfl
  unfold machineStep
  rw [cycle_withSchedule, hempty, State.withSchedule_anyMachine, State.withSchedule_mach]
  cases s.anyMachine
  · rfl
  cases s.mach.status
  case halted => rfl
  case faulted => rfl
  case running =>
    cases s.mach.blk
    · cases s.mach.fh <;> rfl
    · cases s.inputIsEmpty <;> rfl

theorem State.addMachine_withSchedule (m : Mach) :
    (s.withSchedule l).addMachine m = (s.addMachine m).withSchedule l := by
  unfold State.addMachine
  cases hs : s.anyMachine <;> simp [hs] <;> rfl

theorem State.modifyMachine_withSchedule (k : Nat) (f : Mach → Mach) :
    (s.withSchedule l).modifyMachine k f = (s.modifyMachine k f).withSchedule l := by
  unfold State.modifyMachine State.withSchedule
  split
  · rfl
  · split <;> rfl

/-- No host operation looks at the events to come. -/
theorem hostStep_withSchedule (op : HostOp) :
    hostStep op (s.withSchedule l) = onNext (·.withSchedule l) (hostStep op s) := by
  cases op with
  | createChannel =>
    simp only [hostStep, hostCreateChannel, onNext_ite]
    rfl
  | spawn image inch outch =>
    simp only [hostStep, hostSpawn, onNext_ite, State.addMachine_withSchedule]
    rfl
  | push ch v =>
    simp only [hostStep, hostPush, State.withSchedule_chans]
    cases s.chans[ch]? with
    | none => rfl
    | some c =>
      simp only [onNext_ite]
      rfl
  | pop ch =>
    simp only [hostStep, hostPop, State.withSchedule_chans]
    cases s.chans[ch]? with
    | none => rfl
    | some c =>
      simp only [onNext_ite]
      cases c.pop <;> rfl
  | tryPop ch =>
    simp only [hostStep, hostTryPop, State.withSchedule_chans]
    cases s.chans[ch]? with
    | none => rfl
    | some c =>
      simp only [onNext_ite]
      cases c.pop <;> rfl
  | forceHalt k =>
    simp only [hostStep, hostForceHalt, onNext_ite, State.modifyMachine_withSchedule]
    rfl
  | wait k =>
    simp only [hostStep, hostWait, State.withSchedule_machines]
    cases s.machines[k]? with
    | none => rfl
    | some m =>
      simp only [onNext_ite]
      rfl
  | lastOutput k =>
    simp only [hostStep, hostLastOutput, State.withSchedule_machines]
    cases s.machines[k]? <;> rfl
  | dump k =>
    simp only [hostStep, hostDump, State.withSchedule_machines]
    cases s.machines[k]? with
    | none => rfl
    | some m =>
      simp only [onNext_ite]
      rfl

theorem State.focus_withSchedule (k : Nat) : (s.withSchedule l).focus k = (s.focus k).map (·.withSchedule l) := by
  simp only [State.focus, State.withSchedule_machines]
  split <;> rfl

/-- No event looks at the events after it. -/
theorem eventStep_withSchedule (e : Event) :
    eventStep e (s.withSchedule l) = onNext (·.withSchedule l) (eventStep e s) := by
  cases e with
  | run k =>
    cases hf : s.focus k with
    | none => simp only [eventStep, State.focus_withSchedule, hf, Option.map_none, onNext_refused]
    | some f => simp only [eventStep, State.focus_withSchedule, hf, Option.map_some, machineStep_withSchedule]
  | host op => exact hostStep_withSchedule s l op

end

theorem step_withSchedule_cons (s : State) (e : Event) (es : List Event) :
    step (s.withSchedule (e :: es)) = onNext (·.withSchedule es) (eventStep e s) := by
  rw [step_of_schedule_cons (rest := es) rfl]
  exact eventStep_withSchedule s es e

theorem runEvents_cons_cases {e : Event} {es : List Event} {s t : State} (h : runEvents (e :: es) s = .next t) :
    ∃ u, eventStep e s = .next u ∧ runEvents es u = .next t := by
  simp only [runEvents] at h
  split at h
  · exact ⟨_, by assumption, h⟩
  · cases h
  · cases h

/-- A run of events is the run of the schedule that lists them. -/
theorem runSteps_of_runEvents {events : List Event} {s t : State} (h : runEvents events s = .next t) :
    runSteps events.length (s.withSchedule events) = .next (t.withSchedule []) := by
  induction events generalizing s with
  | nil =>
    cases h
    rfl
  | cons e es ih =>
    obtain ⟨u, he, hu⟩ := runEvents_cons_cases h
    simp only [List.length_cons, runSteps, step_withSchedule_cons, he, onNext_next]
    exact ih hu

theorem runEvents_schedule {events : List Event} {s t : State} (h : runEvents events s = .next t) :
    t.schedule = s.schedule := by
  induction events generalizing s with
  | nil =>
    cases h
    rfl
  | cons e es ih =>
    obtain ⟨u, he, hu⟩ := runEvents_cons_cases h
    exact (ih hu).trans (eventStep_cfg_schedule he).2

/-- Settles O44: the head of the schedule names the machine, and no event depends on the ones after it. -/
theorem scheduleChoosesTheMachine : Obligations.ScheduleChoosesTheMachine := by
  refine ⟨fun s k rest hsch => ?_, fun events s t hsch h => ?_⟩
  · rw [step_of_schedule_cons hsch]
    refine ⟨fun m hm => ?_, fun hnone => ?_⟩
    · obtain ⟨f, hf, hfm⟩ := State.focus_of_getElem (s := { s with schedule := rest }) hm
      obtain ⟨-, -, hself, -⟩ := State.focus_eq_some hf
      exact ⟨f, hfm, hself, State.sameSystem_focus hf, eventStep_run hf⟩
    · simp only [eventStep, State.focus_eq_none (s := { s with schedule := rest }) hnone]
  · have hsteps := runSteps_of_runEvents h
    have ht : t.withSchedule [] = t := by
      rw [← hsch, ← runEvents_schedule h]
      rfl
    rwa [ht] at hsteps

end Sys2Proof.Machine
end

section
/-! Who is enabled and who is stepped (60_exceptions.md R119, R122): stops, deadlock, progress under the invariant, the
turns, weak fairness. -/

namespace Sys2Proof.Machine

open Sys2Proof

/-! ### Stops -/

theorem machineStep_of_stopped {s : State} (ha : s.anyMachine = true) :
    (s.mach.status = .halted → machineStep s = .fault .machineHalted) ∧
      (s.mach.status = .faulted → machineStep s = .fault .machineFaulted) :=
  ⟨fun hs => by simp [machineStep, ha, hs], fun hs => by simp [machineStep, ha, hs]⟩

theorem machineStep_of_noMachine {s : State} (ha : s.anyMachine = false) : machineStep s = .fault .noMachine := by
  simp [machineStep, ha]

theorem eventStep_run_of_none {s : State} {k : Nat} (h : s.machines[k]? = none) :
    eventStep (.run k) s = .refused .noSuchMachine := by
  simp only [eventStep, State.focus_eq_none h]

/-- Settles O16: a stop has a name in each case, and a step of the machine in focus would make it enabled. -/
theorem stoppedMachineHasNoStep : Obligations.StoppedMachineHasNoStep := by
  intro s
  refine ⟨fun ha => (machineStep_of_stopped ha).1, fun ha => (machineStep_of_stopped ha).2, fun ha =>
    ⟨machineStep_of_noMachine ha, fun k => eventStep_run_of_none (by rw [State.machines_eq_nil ha]; rfl)⟩,
    fun hsch hnone => ?_⟩
  have hturn : s.turn = none := List.find?_eq_none.2 fun k _ => by simp [hnone k]
  rw [step_of_turn_eq_none hsch hturn]
  refine ⟨rfl, fun t ht => ?_⟩
  have hen : s.machineEnabled s.self = true := s.machineEnabled_self.trans (enabled_of_machineStep ht)
  rw [hnone] at hen
  cases hen

theorem State.machineEnabled_of_focus {s f : State} {k : Nat} (h : s.focus k = some f) :
    s.machineEnabled k = f.enabled := by
  simp only [State.machineEnabled, h]

/-- A machine that steps by an event is enabled. -/
theorem machineEnabled_of_eventStep {s t : State} {k : Nat} (h : eventStep (.run k) s = .next t) :
    s.machineEnabled k = true := by
  obtain ⟨f, hf, -, -, hstep⟩ := eventStep_run_cases h
  rw [State.machineEnabled_of_focus hf, enabled_of_machineStep hstep]

/-- An enabled machine is one that has been spawned. -/
theorem State.lt_of_machineEnabled {s : State} {k : Nat} (h : s.machineEnabled k = true) : k < s.machines.length := by
  rw [← State.focus_isSome_iff]
  unfold State.machineEnabled at h
  split at h
  · cases h
  · rename_i f hf
    rw [hf]
    rfl

/-- Settles O60: a machine that steps is enabled, and in a deadlock none is. -/
theorem deadlockStopsEveryMachine : Obligations.DeadlockStopsEveryMachine := by
  intro s k hdead t h
  have hen := machineEnabled_of_eventStep h
  simp only [State.deadlocked, Bool.and_eq_true, List.all_eq_true, List.mem_range] at hdead
  obtain ⟨-, hnone⟩ := hdead
  have hk := hnone k (State.lt_of_machineEnabled hen)
  simp [hen] at hk

/-! ### Progress -/

/-- An instruction of a machine with bound ports has a next state, but for an IN that holds. -/
theorem exec_progress {s : State} (i : Instr) (hin : s.mach.inch < s.chans.length)
    (hout : s.mach.outch < s.chans.length) (hwait : s.mach.blk = true → s.inputIsEmpty = false) : ∃ t, exec i s = .next t := by
  have hfin : ∀ e, ∃ t, s.finish e = .next t := fun e => by
    obtain ⟨m, hm⟩ := s.finish_next e
    exact ⟨_, hm⟩
  cases i with
  | inp m0 =>
    have hc : s.inChannel = some s.chans[s.mach.inch] := List.getElem?_eq_getElem hin
    cases hd : s.mach.target 0 m0 with
    | none => exact ⟨_, by simp only [exec, execIn_eq, hd]; rfl⟩
    | some d =>
      cases hq : s.chans[s.mach.inch].q with
      | cons v rest => exact ⟨_, exec_inp_of_cons hd hc hq⟩
      | nil =>
        refine ⟨_, exec_inp_enters_wait hd hc hq (Bool.eq_false_of_not_eq_true fun hb => ?_)⟩
        have hne := hwait hb
        rw [State.inputIsEmpty_eq hc, hq] at hne
        cases hne
  | out m0 =>
    have hc : s.outChannel = some s.chans[s.mach.outch] := List.getElem?_eq_getElem hout
    cases h0 : s.mach.readable 0 m0 with
    | true => exact ⟨_, exec_out_ok h0 hc⟩
    | false => exact ⟨_, exec_out_fault h0⟩
  | hlt => exact ⟨_, rfl⟩
  | _ => exact hfin _

/-- Where both ports are bound an enabled machine steps (60_exceptions.md R119). -/
theorem machineStep_progress {s : State} (hin : s.mach.inch < s.chans.length) (hout : s.mach.outch < s.chans.length)
    (h : s.enabled = true) : ∃ t, machineStep s = .next t := by
  obtain ⟨ha, hs, ⟨hb, hf⟩ | ⟨-, hx⟩⟩ := State.enabled_cases h
  · exact ⟨_, machineStep_of_forceHalt ha hs hb hf⟩
  · rw [machineStep_of_aboutToExecute hx]
    cases hw : decode (s.mach.cell s.mach.pc) with
    | ok i =>
      rw [cycle_of_ok hw]
      exact exec_progress (s := s.withMach (s.mach.grow s.mach.pc)) i hin hout hx.waiting
    | error e => exact ⟨_, cycle_of_error hw⟩

/-! ### The turns -/

theorem step_of_nextEvent {s u : State} {e : Event} (hnext : s.nextEvent = some e)
    (he : eventStep e { s with schedule := s.schedule.tail } = .next u) : ∃ t, step s = .next t ∧ SameSystem u t := by
  unfold State.nextEvent at hnext
  split at hnext
  · rename_i hsch
    obtain ⟨k, hk, rfl⟩ := Option.map_eq_some_iff.1 hnext
    have hs : { s with schedule := s.schedule.tail } = s := by
      rw [hsch, List.tail_nil, ← hsch]
    rw [hs] at he
    exact ⟨u.passTurn, by rw [step_of_turn hsch hk, he]; rfl, u.sameSystem_passTurn⟩
  · rename_i e' rest hsch
    cases hnext
    rw [hsch] at he
    exact ⟨u, (step_of_schedule_cons hsch).trans he, ⟨rfl, rfl, rfl, rfl, rfl, rfl⟩⟩

/-- With no event to come a step is that of the first enabled machine of the circle, after which the focus is on the
next one. -/
theorem step_turn_cases {s t : State} (hsch : s.schedule = []) (h : step s = .next t) :
    ∃ j, s.turn = some j ∧ t.machines.length = s.machines.length ∧ t.self = (j + 1) % s.machines.length := by
  cases hturn : s.turn with
  | none =>
    rw [step_of_turn_eq_none hsch hturn] at h
    rw [State.turn_of_enabled (enabled_of_machineStep h)] at hturn
    cases hturn
  | some j =>
    rw [step_of_turn hsch hturn] at h
    cases hu : eventStep (.run j) s with
    | fault f => simp [hu, endTurn] at h
    | refused r => simp [hu, endTurn] at h
    | next u =>
      rw [hu] at h
      cases h
      have hlen := eventStep_run_machines_length hu
      obtain ⟨f, -, -, hsame, hstep⟩ := eventStep_run_cases hu
      have hany : u.anyMachine = true := by
        rw [(machineStepLeavesTheRestAlone f u hstep).anyMachine, (machineStep_running hstep).1]
      refine ⟨j, rfl, ?_, ?_⟩
      · rw [← u.sameSystem_passTurn.machines, hlen]
      · rw [State.passTurn_self hany, eventStep_run_self hu, hlen]

/-- Of the machines in the circle none before the one whose turn it is is enabled. -/
theorem State.turn_le {s : State} {j k d : Nat} (hturn : s.turn = some j) (hk : s.machineEnabled k = true)
    (hd : (s.self + d) % s.machines.length = k) :
    ∃ d', d' ≤ d ∧ (s.self + d') % s.machines.length = j := by
  simp only [State.turn, State.turns, List.find?_map, Option.map_eq_some_iff, List.find?_range_eq_some] at hturn
  obtain ⟨d', ⟨-, -, hnone⟩, hj⟩ := hturn
  refine ⟨d', Nat.le_of_not_lt fun hdd => ?_, hj⟩
  have := hnone d hdd
  simp only [Function.comp_apply, hd, hk] at this
  cases this

/-- The turn comes to an enabled machine `d` places on in the circle. -/
theorem EndlessRun.turn_comes {σ : Nat → State} (hrun : EndlessRun σ) {k : Nat} (d : Nat) :
    ∀ n, (∀ m, n ≤ m → (σ m).machineEnabled k = true) → (σ n).schedule = [] →
      ((σ n).self + d) % (σ n).machines.length = k → ∃ m, n ≤ m ∧ (σ m).nextEvent = some (.run k) := by
  induction d using Nat.strong_induction_on with
  | _ d ih =>
    intro n hen hsch hd
    obtain ⟨j, hturn, hlen, hself⟩ := step_turn_cases hsch (hrun n)
    by_cases hjk : j = k
    · refine ⟨n, Nat.le_refl n, ?_⟩
      simp only [State.nextEvent, hsch, hturn, hjk, Option.map_some]
    · obtain ⟨d', hle, hj⟩ := State.turn_le hturn (hen n (Nat.le_refl n)) hd
      have hne : d' ≠ d := by
        rintro rfl
        exact hjk (hj.symm.trans hd)
      have hsch' : (σ (n + 1)).schedule = [] := by rw [step_schedule (hrun n), hsch, List.tail_nil]
      obtain ⟨m, hm, hnext⟩ := ih (d - d' - 1) (by omega) (n + 1) (fun m hm => hen m (by omega)) hsch' (by
        rw [hlen, hself, ← hj, Nat.mod_add_mod, Nat.add_assoc, Nat.mod_add_mod, ← hd]
        congr 1
        omega)
      exact ⟨m, by omega, hnext⟩

/-- The schedule of an endless run is used up. -/
theorem EndlessRun.schedule_eq_drop {σ : Nat → State} (hrun : EndlessRun σ) (n i : Nat) :
    (σ (n + i)).schedule = (σ n).schedule.drop i := by
  induction i with
  | zero => rfl
  | succ i ih => rw [← Nat.add_assoc, step_schedule (hrun (n + i)), ih, List.tail_drop]

theorem EndlessRun.weaklyFair {σ : Nat → State} (hrun : EndlessRun σ) : WeaklyFair σ fun n => (σ n).nextEvent := by
  intro k n hen
  obtain ⟨n', hle, hsch⟩ : ∃ n', n ≤ n' ∧ (σ n').schedule = [] :=
    ⟨n + (σ n).schedule.length, Nat.le_add_right _ _, by rw [hrun.schedule_eq_drop, List.drop_length]⟩
  have hk := State.lt_of_machineEnabled (hen n' hle)
  have hself : (σ n').self < (σ n').machines.length := by
    refine State.self_lt ?_
    cases ha : (σ n').anyMachine with
    | true => rfl
    | false => simp [State.machines_eq_nil ha] at hk
  obtain ⟨m, hm, hnext⟩ := hrun.turn_comes (k + (σ n').machines.length - (σ n').self) n'
    (fun m hm => hen m (hle.trans hm)) hsch (by
      rw [Nat.add_sub_cancel' (by omega), Nat.add_mod_right, Nat.mod_eq_of_lt hk])
  exact ⟨m, hle.trans hm, hnext⟩

/-- Settles O17: progress needs only bound ports, and the turn comes round once the schedule is used up. -/
theorem machineStepsExactlyWhenEnabled : Obligations.MachineStepsExactlyWhenEnabled := by
  refine ⟨fun s hinv => ⟨fun ⟨t, ht⟩ => enabled_of_machineStep ht, fun hen => ?_⟩, fun s t => step_next_cases,
    fun s u e => step_of_nextEvent, fun σ hrun => hrun.weaklyFair⟩
  obtain ⟨ha, -, -⟩ := State.enabled_cases hen
  have hmach := hinv.machInv _ _ (State.machines_self ha)
  exact machineStep_progress hmach.inBound hmach.outBound hen

/-! ### A force-halt request is seen -/

/-- An event that does not run machine `k` leaves it alone but for its force-halt flag. -/
theorem eventStep_keeps_machine {e : Event} {s t : State} {k : Nat} {m : Mach} (h : eventStep e s = .next t)
    (hne : e ≠ .run k) (hk : s.machines[k]? = some m) :
    t.machines[k]? = some m ∨ t.machines[k]? = some { m with fh := true } := by
  cases e with
  | run j =>
    left
    rw [eventStep_run_machines h, if_neg (fun hkj : k = j => hne (hkj ▸ rfl)), hk]
  | host op =>
    obtain ⟨-, -, -, hm⟩ := hostChangesOnlyForceHalt op s t k m h hk
    exact hm

section
variable {σ : Nat → State} {act : Nat → Option Event} (hexec : Execution σ act) {k : Nat} {m : Mach}
  (hfh : m.fh = true)
include hexec hfh

/-- A machine whose flag is set stays as it is until it is stepped. -/
theorem Execution.machine_kept {n i : Nat} (hk : (σ n).machines[k]? = some m)
    (hnone : ∀ j, j < i → act (n + j) ≠ some (.run k)) : (σ (n + i)).machines[k]? = some m := by
  induction i with
  | zero => exact hk
  | succ i ih =>
    have hi := ih fun j hj => hnone j (by omega)
    cases hact : act (n + i) with
    | none =>
      rw [← Nat.add_assoc, hexec.idles _ hact]
      exact hi
    | some e =>
      have hne : e ≠ .run k := fun he => hnone i (Nat.lt_succ_self i) (he ▸ hact)
      have hsame : ({ m with fh := true } : Mach) = m := by rw [← hfh]
      have hkept := eventStep_keeps_machine (hexec.moves _ _ hact) hne hi
      rwa [hsame, or_self] at hkept

end

theorem State.machineEnabled_of_boundary {s : State} {k : Nat} {m : Mach} (hk : s.machines[k]? = some m)
    (hs : m.status = .running) (hb : m.blk = false) : s.machineEnabled k = true := by
  obtain ⟨f, hf, rfl⟩ := State.focus_of_getElem hk
  have ha : f.anyMachine = true := by
    rw [← (State.sameSystem_focus hf).anyMachine, State.anyMachine_of_getElem hk]
  simp [State.machineEnabled_of_focus hf, State.enabled, ha, hs, hb]

/-- The event that runs a machine with a force-halt request at a boundary halts it. -/
theorem eventStep_of_forceHalt {s t : State} {k : Nat} {m : Mach} (hk : s.machines[k]? = some m)
    (hs : m.status = .running) (hb : m.blk = false) (hf : m.fh = true) (h : eventStep (.run k) s = .next t) :
    t.machines[k]? = some { m with status := .halted } := by
  obtain ⟨f, hfocus, -, -, hstep⟩ := eventStep_run_cases h
  obtain ⟨hget, -⟩ := State.focus_eq_some hfocus
  have hfm : f.mach = m := Option.some.inj (hget.symm.trans hk)
  subst hfm
  rw [machineStep_of_forceHalt (machineStep_running hstep).1 hs hb hf] at hstep
  rw [eventStep_run_machines h, if_pos rfl]
  cases hstep
  rfl

/-- Settles O14: the machine stays at its boundary, and so enabled, until it is stepped; fairness has it stepped. -/
theorem forceHaltAtTheBoundary : Obligations.ForceHaltAtTheBoundary := by
  refine ⟨fun s ha hs hb hf => ?_, fun σ act k n m hexec hfair hk hs hb hf => ?_⟩
  · have hm := machineStep_of_forceHalt ha hs hb hf
    have hen : s.enabled = true := by simp [State.enabled, ha, hs, hb]
    exact ⟨hm, fun hsch => by rw [step_of_enabled hsch hen, hm]⟩
  · have hstepped : ∃ i, act (n + i) = some (.run k) := by
      by_contra hnever
      rw [not_exists] at hnever
      obtain ⟨n', hle, hact⟩ := hfair k n fun n' hle => by
        obtain ⟨i, rfl⟩ := Nat.exists_eq_add_of_le hle
        exact State.machineEnabled_of_boundary (hexec.machine_kept hf hk fun j _ => hnever j) hs hb
      obtain ⟨i, rfl⟩ := Nat.exists_eq_add_of_le hle
      exact hnever i hact
    have hkept := hexec.machine_kept hf hk (i := Nat.find hstepped) fun j hj => Nat.find_min hstepped hj
    exact ⟨n + Nat.find hstepped + 1, by omega,
      eventStep_of_forceHalt hkept hs hb hf (hexec.moves _ _ (Nat.find_spec hstepped))⟩

end Sys2Proof.Machine
end

section
/-! What every step keeps of a machine (10_state.md R25, 60_exceptions.md R110): no machine goes back, and the run
status follows its diagram. -/

namespace Sys2Proof.Machine

open Sys2Proof

/-! ### No machine goes back -/

theorem Later.refl (m : Mach) : Later m m := ⟨Nat.le_refl _, id, id, fun _ => rfl, rfl, rfl⟩

theorem Later.forceHalt (m : Mach) : Later m { m with fh := true } :=
  ⟨Nat.le_refl _, id, fun _ => rfl, fun _ => rfl, rfl, rfl⟩

/-- An instruction shrinks no extent and takes back no output. -/
theorem ExecResult.grows {s t : State} {i : Instr} (h : ExecResult s i t) :
    s.mach.ext ≤ t.mach.ext ∧ (s.mach.outv = true → t.mach.outv = true) := by
  cases h with
  | pushed m0 c _ _ => exact ⟨s.mach.ext_le_extAfter _, fun _ => rfl⟩
  | halted => exact ⟨Nat.le_refl _, id⟩
  | _ => exact ⟨s.mach.ext_le_extAfter _, id⟩

theorem machineStep_later {s t : State} (h : machineStep s = .next t) : Later s.mach t.mach := by
  have hsur := machineStepLeavesTheRestAlone s t h
  have hgrows : s.mach.ext ≤ t.mach.ext ∧ (s.mach.outv = true → t.mach.outv = true) := by
    cases machineStep_result h with
    | forceHalted _ _ ht =>
      subst ht
      exact ⟨Nat.le_refl _, id⟩
    | rejected e _ _ ht =>
      obtain ⟨-, as, rfl⟩ := ht
      exact ⟨s.mach.ext_le_extAfter as, id⟩
    | executed i _ _ hr =>
      obtain ⟨hext, houtv⟩ := hr.grows
      exact ⟨(Nat.le_max_left _ _).trans hext, houtv⟩
  exact ⟨hgrows.1, hgrows.2, fun hf => hsur.fh.trans hf, fun hs => absurd (machineStep_running h).2 hs, hsur.inch,
    hsur.outch⟩

theorem eventStep_later {e : Event} {s t : State} {k : Nat} {m : Mach} (h : eventStep e s = .next t)
    (hk : s.machines[k]? = some m) : ∃ m', t.machines[k]? = some m' ∧ Later m m' := by
  by_cases he : e = .run k
  · subst he
    obtain ⟨f, hf, -, -, hstep⟩ := eventStep_run_cases h
    obtain ⟨hget, -⟩ := State.focus_eq_some hf
    cases hget.symm.trans hk
    exact ⟨t.mach, by rw [eventStep_run_machines h, if_pos rfl], machineStep_later hstep⟩
  · obtain hm | hm := eventStep_keeps_machine h he hk
    · exact ⟨m, hm, .refl m⟩
    · exact ⟨_, hm, .forceHalt m⟩

/-- Settles O58: a machine that an event steps gets later, and any other event sets at most its flag. -/
theorem machinesNeverGoBack : Obligations.MachinesNeverGoBack := by
  intro s t k m h hk
  obtain ⟨e, u, -, he, hsame⟩ := step_next_cases h
  rw [← hsame.machines]
  exact eventStep_later he hk

/-! ### The run status -/

/-- An instruction ends as its fault says: with that fault, or without one and its status kept but by HLT. -/
def FollowsFault (i : Instr) (s : State) : Prop :=
  (∃ c as, s.mach.faultOf s.cfg.xlen i = some c ∧ exec i s = s.faultsAfter c as) ∨
    (s.mach.faultOf s.cfg.xlen i = none ∧
      ∀ t, exec i s = .next t → t.mach.status = if i = .hlt then .halted else s.mach.status)

theorem FollowsFault.of_fault {i : Instr} {s : State} {c : Cause} {as : List Nat}
    (hf : s.mach.faultOf s.cfg.xlen i = some c) (he : exec i s = s.faultsAfter c as) : FollowsFault i s :=
  .inl ⟨c, as, hf, he⟩

theorem FollowsFault.of_next {i : Instr} {s t : State} (hi : i ≠ .hlt) (hf : s.mach.faultOf s.cfg.xlen i = none)
    (he : exec i s = .next t) (ht : t.mach.status = s.mach.status) : FollowsFault i s := by
  refine .inr ⟨hf, fun t' ht' => ?_⟩
  cases he.symm.trans ht'
  rw [if_neg hi, ht]

/-- A format F3 instruction whose operation overflows where `overflows` says so. -/
theorem followsFault_f3 {i : Instr} {s : State} {alu : Int → Int → Except Cause Int} {m0 m1 m2 : Mode} {r : Int}
    {overflows : Bool} (hi : i.modes = [m0, m1, m2]) (hm2 : m2.isDestination = true)
    (he : exec i s = s.finish (evalF3 alu m0 m1 m2 s.mach))
    (hf : s.mach.faultOf s.cfg.xlen i = s.mach.f3Fault m0 m1 m2 overflows)
    (halu : alu (s.mach.value 0 m0) (s.mach.value 1 m1) = if overflows then .error .overflow else .ok r) :
    FollowsFault i s := by
  have hne : i ≠ .hlt := by
    rintro rfl
    cases hi
  have hfaults := f3Faults_of_exec hm2 he
  cases h0 : s.mach.readable 0 m0 with
  | false => exact .of_fault (by simp [hf, Mach.f3Fault, h0]) (hfaults.first h0)
  | true =>
    cases h1 : s.mach.readable 1 m1 with
    | false => exact .of_fault (by simp [hf, Mach.f3Fault, h1]) (hfaults.second h0 h1)
    | true =>
      cases h2 : s.mach.target 2 m2 with
      | none => exact .of_fault (by simp [hf, Mach.f3Fault, h2]) (hfaults.third h0 h1 h2)
      | some d =>
        cases overflows with
        | true =>
          exact .of_fault (by simp [hf, Mach.f3Fault, h0, h1, h2]) (he.trans (finish_evalF3_error h0 h1 h2 halu))
        | false =>
          exact .of_next hne (by simp [hf, Mach.f3Fault, h0, h1, h2]) (he.trans (finish_evalF3_ok h0 h1 h2 halu)) rfl

theorem followsFault_jump {i : Instr} {s : State} {taken : Int → Bool} {m0 m1 : Mode} (hi : i.modes = [m0, m1])
    (he : exec i s = s.finish (evalJump taken m0 m1 s.mach))
    (hf : s.mach.faultOf s.cfg.xlen i = s.mach.jumpFault m0 m1 (taken (s.mach.value 0 m0))) : FollowsFault i s := by
  have hne : i ≠ .hlt := by
    rintro rfl
    cases hi
  cases h0 : s.mach.readable 0 m0 with
  | false => exact .of_fault (by simp [hf, Mach.jumpFault, h0]) (jump_fault he h0)
  | true =>
    cases ht : taken (s.mach.value 0 m0) with
    | false => exact .of_next hne (by simp [hf, Mach.jumpFault, h0, ht]) (jump_falls_through he h0 ht) rfl
    | true =>
      have hjump := jumpTaken_of_exec he h0 ht
      cases h1 : s.mach.readable 1 m1 with
      | false => exact .of_fault (by simp [hf, Mach.jumpFault, ht, h1]) (hjump.unreadable h1)
      | true =>
        rcases Int.lt_or_le (s.mach.value 1 m1) 0 with hneg | hpos
        · exact .of_fault (by simp [hf, Mach.jumpFault, ht, hneg]) (hjump.negative h1 hneg)
        · exact .of_next hne (by simp [hf, Mach.jumpFault, h0, ht, h1, hpos]) (hjump.taken h1 hpos) rfl

/-- An IN whose destination resolves completes or enters the wait (41_io.md R79). -/
theorem exec_inp_cases {s t : State} {m0 : Mode} {d : Nat} (hd : s.mach.target 0 m0 = some d)
    (h : exec (.inp m0) s = .next t) :
    (t.mach.status = s.mach.status ∧ t.mach.blk = false) ∨
      (s.mach.blk = false ∧
        t = s.withMach { s.mach with blk := true, ext := s.mach.extAfter [s.mach.litCell 0] }) := by
  cases hc : s.inChannel with
  | none => simp [exec, execIn_eq, hd, inputAt, hc] at h
  | some c =>
    cases hq : c.q with
    | cons v rest =>
      rw [exec_inp_of_cons hd hc hq] at h
      cases h
      exact .inl ⟨rfl, rfl⟩
    | nil =>
      cases hb : s.mach.blk with
      | true =>
        rw [exec_inp_holds hd hc hq hb] at h
        cases h
      | false =>
        rw [exec_inp_enters_wait hd hc hq hb] at h
        cases h
        exact .inr ⟨rfl, rfl⟩

theorem followsFault_inp {s : State} {m0 : Mode} (hm : m0.isDestination = true) : FollowsFault (.inp m0) s := by
  cases hd : s.mach.target 0 m0 with
  | none => exact .of_fault (by simp [Mach.faultOf, hd]) (exec_inp_fault hm hd)
  | some d =>
    refine .inr ⟨by simp [Mach.faultOf, hd], fun t ht => ?_⟩
    obtain ⟨hs, -⟩ | ⟨-, rfl⟩ := exec_inp_cases hd ht
    · exact hs
    · rfl

theorem followsFault_out (s : State) (m0 : Mode) : FollowsFault (.out m0) s := by
  cases h0 : s.mach.readable 0 m0 with
  | false => exact .of_fault (by simp [Mach.faultOf, h0]) (exec_out_fault h0)
  | true =>
    refine .inr ⟨by simp [Mach.faultOf, h0], fun t ht => ?_⟩
    cases hc : s.outChannel with
    | none => simp [exec, execOut_eq, h0, outputOf, hc] at ht
    | some c =>
      rw [exec_out_ok h0 hc] at ht
      cases ht
      rfl

theorem followsFault_arb (s : State) (m0 : Mode) : FollowsFault (.arb m0) s := by
  cases h0 : s.mach.readable 0 m0 with
  | false => exact .of_fault (by simp [Mach.faultOf, h0]) (exec_arb_fault h0)
  | true =>
    cases hw : isWord s.cfg.xlen (s.mach.rb + s.mach.value 0 m0) with
    | false => exact .of_fault (by simp [Mach.faultOf, h0, hw]) (exec_arb_overflow h0 hw)
    | true => exact .of_next (by simp) (by simp [Mach.faultOf, h0, hw]) (exec_arb_ok h0 hw) rfl

theorem exec_followsFault {i : Instr} {s : State} (hwf : i.wf = true) : FollowsFault i s := by
  have hchk : ∀ v, chk s.cfg.xlen v = if !isWord s.cfg.xlen v then .error .overflow else .ok v := fun v => by
    cases hv : isWord s.cfg.xlen v <;> simp [chk_eq, hv]
  cases i with
  | add m0 m1 m2 => exact followsFault_f3 rfl hwf rfl rfl (hchk _)
  | mul m0 m1 m2 => exact followsFault_f3 rfl hwf rfl rfl (hchk _)
  | lt m0 m1 m2 => exact followsFault_f3 (overflows := false) rfl hwf rfl rfl rfl
  | eq m0 m1 m2 => exact followsFault_f3 (overflows := false) rfl hwf rfl rfl rfl
  | jt m0 m1 => exact followsFault_jump rfl rfl rfl
  | jf m0 m1 => exact followsFault_jump rfl rfl rfl
  | inp m0 => exact followsFault_inp hwf
  | out m0 => exact followsFault_out s m0
  | arb m0 => exact followsFault_arb s m0
  | hlt =>
    refine .inr ⟨rfl, fun t ht => ?_⟩
    cases ht
    rfl

@[simp] theorem Mach.faultOf_grow (x : XLen) (m : Mach) (a : Nat) (i : Instr) :
    (m.grow a).faultOf x i = m.faultOf x i := by
  cases i <;> simp [Mach.faultOf, Mach.f3Fault, Mach.jumpFault]

/-- The cycle takes the fault of the word at `pc` or of its instruction, and else keeps the status but by HLT. -/
theorem cycle_followsFault {s t : State} (h : cycle s = .next t) :
    (∃ c as, s.mach.nextFault s.cfg.xlen = some c ∧ s.faultsAfter c as = .next t) ∨
      (s.mach.nextFault s.cfg.xlen = none ∧ t.mach.status =
        if decode (s.mach.cell s.mach.pc) = .ok .hlt then .halted else s.mach.status) := by
  cases hw : decode (s.mach.cell s.mach.pc) with
  | error e =>
    rw [cycle_of_error hw] at h
    exact .inl ⟨causeOfDecodeError e, _, by simp [Mach.nextFault, hw], h⟩
  | ok i =>
    rw [cycle_of_ok hw] at h
    have hnext : s.mach.nextFault s.cfg.xlen = s.mach.faultOf s.cfg.xlen i := by simp [Mach.nextFault, hw]
    have hgrow : (s.withMach (s.mach.grow s.mach.pc)).mach.faultOf s.cfg.xlen i = s.mach.faultOf s.cfg.xlen i :=
      Mach.faultOf_grow _ _ _ i
    obtain ⟨c, as, hf, he⟩ | ⟨hf, hstatus⟩ :=
      exec_followsFault (s := s.withMach (s.mach.grow s.mach.pc)) (decode_ok_wf hw)
    · exact .inl ⟨c, s.mach.pc :: as, hnext.trans (hgrow.symm.trans hf), he.symm.trans h⟩
    · exact .inr ⟨hnext.trans (hgrow.symm.trans hf), by simpa using hstatus t h⟩

/-- Settles O59: an enabled machine halts at a force-halt request, or its cycle ends as its fault says; a stopped
machine changes in its flag only. -/
theorem statusFollowsItsDiagram : Obligations.StatusFollowsItsDiagram := by
  refine ⟨fun _ _ _ => rfl, fun s t h => ?_, fun s t k m h hk hs => ?_⟩
  · obtain ⟨ha, hs, hcases⟩ := State.enabled_cases (enabled_of_machineStep h)
    refine ⟨hs, fun ⟨hb, hf⟩ => ?_, fun hnot => ?_⟩
    · rw [machineStep_of_forceHalt ha hs hb hf] at h
      cases h
      rfl
    · obtain hhalt | ⟨-, hx⟩ := hcases
      · exact absurd hhalt hnot
      rw [machineStep_of_aboutToExecute hx] at h
      obtain ⟨c, as, hc, ht⟩ | ⟨hnone, hstatus⟩ := cycle_followsFault h
      · cases ht
        refine ⟨fun c' hc' => ?_, fun hnone => ?_⟩
        · cases hc.symm.trans hc'
          exact ⟨rfl, rfl, rfl, rfl⟩
        · cases hc.symm.trans hnone
      · refine ⟨fun c hc => ?_, fun _ => ⟨fun hhlt => ?_, fun hhlt => ?_⟩⟩
        · cases hnone.symm.trans hc
        · rw [hstatus, if_pos hhlt]
        · rw [hstatus, if_neg hhlt, hs]
  · obtain ⟨m', hm', hlater⟩ := machinesNeverGoBack s t k m h hk
    exact ⟨m', hm', by rw [hlater.stopped hs]⟩

end Sys2Proof.Machine
end

section
/-! The invariant of the system (10_state.md R25): it holds when nothing exists yet, every event keeps it, and so does
every step. -/

namespace Sys2Proof.Machine

open Sys2Proof

/-! ### What an instruction keeps of a machine -/

/-- The part of a machine's invariant that is about its words: canonical memory, zero beyond the extent, words
everywhere (10_state.md R25 a, c, d). -/
structure Mach.Sound (x : XLen) (m : Mach) : Prop where
  memWf : m.mem.wf = true
  memInExtent : ∀ a, m.ext ≤ a → m.cell a = 0
  memWords : ∀ a, isWord x (m.cell a) = true
  rbWord : isWord x m.rb = true
  outWord : m.outv = true → isWord x m.out = true

theorem MachInv.sound {cfg : Config} {n : Nat} {m : Mach} (h : MachInv cfg n m) : m.Sound cfg.xlen := { h with }

/-- Every channel of the list holds words. -/
def ChannelsHoldWords (x : XLen) (l : List Channel) : Prop :=
  ∀ (ch : Nat) c, l[ch]? = some c → ∀ v ∈ c.q, isWord x v = true

theorem Mach.Sound.value {x : XLen} {m : Mach} (h : m.Sound x) (i : Nat) (mode : Mode) :
    isWord x (m.value i mode) = true := by
  unfold Mach.value
  split
  · exact h.memWords _
  · exact h.memWords _

/-- A machine with the memory of a sound one, and an extent at least as large. -/
theorem Mach.Sound.of_mem_eq {x : XLen} {m m' : Mach} (h : m.Sound x) (hmem : m'.mem = m.mem) (hext : m.ext ≤ m'.ext)
    (hrb : isWord x m'.rb = true) (hout : m'.outv = true → isWord x m'.out = true) : m'.Sound x where
  memWf := hmem ▸ h.memWf
  memInExtent a ha := by
    rw [Mach.cell, hmem]
    exact h.memInExtent a (hext.trans ha)
  memWords a := by
    rw [Mach.cell, hmem]
    exact h.memWords a
  rbWord := hrb
  outWord := hout

/-- A machine whose memory is that of a sound one after one word was written inside its extent. -/
theorem Mach.Sound.of_mem_write {x : XLen} {m m' : Mach} {d : Nat} {v : Int} (h : m.Sound x) (hv : isWord x v = true)
    (hmem : m'.mem = m.mem.write d v) (hext : m.ext ≤ m'.ext) (hd : d < m'.ext) (hrb : m'.rb = m.rb)
    (houtv : m'.outv = m.outv) (hout : m'.out = m.out) : m'.Sound x := by
  have hcell : ∀ a, m'.cell a = if a = d then v else m.cell a := fun a => by
    rw [Mach.cell, hmem, Memory.read_write h.memWf]
    rfl
  exact {
    memWf := hmem ▸ Memory.wf_write h.memWf d v
    memInExtent := fun a ha => by
      rw [hcell, if_neg (by omega)]
      exact h.memInExtent a (hext.trans ha)
    memWords := fun a => by
      rw [hcell]
      split
      · exact hv
      · exact h.memWords a
    rbWord := hrb ▸ h.rbWord
    outWord := by
      rw [houtv, hout]
      exact h.outWord }

/-- An instruction keeps a machine sound. -/
theorem ExecResult.sound {s t : State} {i : Instr} (h : ExecResult s i t) (hs : s.mach.Sound s.cfg.xlen)
    (hx : XLenOk s.cfg.xlen) (hw : ChannelsHoldWords s.cfg.xlen s.chans) : t.mach.Sound s.cfg.xlen := by
  cases h with
  | faulted _ c as _ _ => exact hs.of_mem_eq rfl (s.mach.ext_le_extAfter as) hs.rbWord hs.outWord
  | stored _ m0 m1 m2 d r _ _ hr =>
    have hword : isWord s.cfg.xlen r = true := by
      rcases hr with hr | rfl | rfl
      · exact hr
      · exact hx.1
      · exact hx.2
    exact hs.of_mem_write hword rfl (s.mach.ext_le_extAfter _) (s.mach.lt_extAfter_of_mem (by simp)) rfl rfl rfl
  | popped m0 d c v rest _ hc hq =>
    have hword : isWord s.cfg.xlen v = true := hw _ c hc v (by simp [hq])
    exact hs.of_mem_write hword rfl (s.mach.ext_le_extAfter _) (s.mach.lt_extAfter_of_mem (by simp)) rfl rfl rfl
  | waits m0 d c _ _ _ _ => exact hs.of_mem_eq rfl (s.mach.ext_le_extAfter _) hs.rbWord hs.outWord
  | pushed m0 c _ _ => exact hs.of_mem_eq rfl (s.mach.ext_le_extAfter _) hs.rbWord fun _ => hs.value 0 m0
  | jumped _ m0 m1 p as _ => exact hs.of_mem_eq rfl (s.mach.ext_le_extAfter as) hs.rbWord hs.outWord
  | halted => exact hs.of_mem_eq rfl (Nat.le_refl _) hs.rbWord hs.outWord
  | based m0 hr => exact hs.of_mem_eq rfl (s.mach.ext_le_extAfter _) hr hs.outWord

/-- A fault keeps a machine sound. -/
theorem State.FaultedTo.sound {s t : State} {c : Cause} (h : s.FaultedTo c t) (hs : s.mach.Sound s.cfg.xlen) :
    t.mach.Sound s.cfg.xlen := by
  obtain ⟨-, as, rfl⟩ := h
  exact hs.of_mem_eq rfl (s.mach.ext_le_extAfter as) hs.rbWord hs.outWord

/-- Replacing a channel by one of words. -/
theorem ChannelsHoldWords.set {x : XLen} {l : List Channel} {c0 : Channel} (h : ChannelsHoldWords x l) (k : Nat)
    (h0 : ∀ v ∈ c0.q, isWord x v = true) : ChannelsHoldWords x (l.set k c0) := by
  intro ch c hc
  by_cases hch : ch = k
  · subst hch
    rw [List.getElem?_set_self', Option.map_eq_map, Option.map_eq_some_iff] at hc
    obtain ⟨c', -, rfl⟩ := hc
    exact h0
  · rw [List.getElem?_set_ne (Ne.symm hch)] at hc
    exact h ch c hc

theorem ChannelsHoldWords.push {x : XLen} {l : List Channel} {k : Nat} {c : Channel} {w : Int}
    (h : ChannelsHoldWords x l) (hc : l[k]? = some c) (hw : isWord x w = true) :
    ChannelsHoldWords x (l.set k (c.push w)) := by
  refine h.set k fun v hv => ?_
  rw [Channel.push_q, List.mem_append, List.mem_singleton] at hv
  rcases hv with hv | rfl
  · exact h k c hc v hv
  · exact hw

theorem ChannelsHoldWords.pop {x : XLen} {l : List Channel} {k : Nat} {c : Channel} {w : Int} {rest : List Int}
    (h : ChannelsHoldWords x l) (hc : l[k]? = some c) (hq : c.q = w :: rest) :
    ChannelsHoldWords x (l.set k { c with q := rest }) :=
  h.set k fun v hv => h k c hc v (hq ▸ List.mem_cons_of_mem w hv)

theorem ExecResult.channelsHoldWords {s t : State} {i : Instr} (h : ExecResult s i t) (hs : s.mach.Sound s.cfg.xlen)
    (hw : ChannelsHoldWords s.cfg.xlen s.chans) : ChannelsHoldWords s.cfg.xlen t.chans := by
  cases h with
  | popped m0 d c v rest _ hc hq => exact hw.pop hc hq
  | pushed m0 c _ hc => exact hw.push hc (hs.value 0 m0)
  | _ => exact hw

/-- An instruction sets a cause exactly when it faults. -/
theorem ExecResult.causeIff {s t : State} {i : Instr} (h : ExecResult s i t) (hs : s.mach.status = .running)
    (hc : s.mach.cause = .none) : t.mach.cause = .none ↔ t.mach.status ≠ .faulted := by
  cases h with
  | faulted _ c as _ hcause =>
    have hne : c ≠ .none := (faultedTo_of_cause (s := s) as hcause).1
    exact ⟨fun h => absurd h hne, fun h => absurd rfl h⟩
  | halted => exact ⟨fun _ => by simp, fun _ => hc⟩
  | _ => exact ⟨fun _ => by simp [hs], fun _ => hc⟩

/-! ### What a machine's step keeps -/

section
variable {s t : State} (hinv : MachInv s.cfg s.chans.length s.mach) (h : machineStep s = .next t)
include hinv h

theorem machineStep_sound_words (hx : XLenOk s.cfg.xlen) (hw : ChannelsHoldWords s.cfg.xlen s.chans) :
    t.mach.Sound s.cfg.xlen ∧ ChannelsHoldWords s.cfg.xlen t.chans := by
  have hs := hinv.sound
  cases machineStep_result h with
  | forceHalted _ _ ht =>
    subst ht
    exact ⟨hs.of_mem_eq rfl (Nat.le_refl _) hs.rbWord hs.outWord, hw⟩
  | rejected e _ _ ht =>
    refine ⟨ht.sound hs, ?_⟩
    obtain ⟨-, as, rfl⟩ := ht
    exact hw
  | executed i _ _ hr =>
    have hgrow : (s.mach.grow s.mach.pc).Sound s.cfg.xlen :=
      hs.of_mem_eq rfl (Nat.le_max_left _ _) hs.rbWord hs.outWord
    exact ⟨hr.sound hgrow hx hw, hr.channelsHoldWords hgrow hw⟩

theorem machineStep_causeIff : t.mach.cause = .none ↔ t.mach.status ≠ .faulted := by
  have hs := (machineStep_running h).2
  have hc : s.mach.cause = .none := hinv.causeIff.2 (by simp [hs])
  cases machineStep_result h with
  | forceHalted _ _ ht =>
    subst ht
    exact ⟨fun _ => by simp, fun _ => hc⟩
  | rejected e _ _ ht =>
    obtain ⟨hne, as, rfl⟩ := ht
    exact ⟨fun h => absurd h hne, fun h => absurd rfl h⟩
  | executed i _ _ hr => exact hr.causeIff hs hc

/-- After a step a machine is inside the wait only where it has entered it: one that was inside has left it with the
word that it waited for (41_io.md R79). -/
theorem machineStep_waiting (hblk : t.mach.blk = true) : Waiting t.mach := by
  cases machineStep_result h with
  | forceHalted hb _ ht =>
    subst ht
    cases hb.symm.trans hblk
  | rejected e _ he ht =>
    obtain ⟨-, as, rfl⟩ := ht
    obtain ⟨m0, d, hi, -⟩ := (hinv.waiting hblk).atInput
    cases he.symm.trans hi
  | executed i hx hi hr =>
    cases hb : s.mach.blk with
    | true =>
      obtain ⟨m0, d, hin, hd⟩ := (hinv.waiting hb).atInput
      rw [machineStep_of_aboutToExecute hx, cycle_of_ok hin] at h
      obtain ⟨-, hblk'⟩ | ⟨hb', -⟩ := exec_inp_cases (s := s.withMach (s.mach.grow s.mach.pc)) (by simpa using hd) h
      · cases hblk'.symm.trans hblk
      · cases hb'.symm.trans hb
    | false =>
      cases hr with
      | waits m0 d c hd _ _ _ => exact ⟨hx.running, m0, d, hi, hd⟩
      | popped m0 d c v rest _ _ _ => cases hblk
      | _ => cases hb.symm.trans hblk

theorem machineStep_machInv (hx : XLenOk s.cfg.xlen) (hw : ChannelsHoldWords s.cfg.xlen s.chans) :
    MachInv t.cfg t.chans.length t.mach := by
  have hsur := machineStepLeavesTheRestAlone s t h
  have hlen := machineStep_chans_length h
  have hsound := (machineStep_sound_words hinv h hx hw).1
  rw [hsur.cfg, hlen]
  exact { hsound with
    causeIff := machineStep_causeIff hinv h
    waiting := machineStep_waiting hinv h
    inBound := hsur.inch ▸ hinv.inBound
    outBound := hsur.outch ▸ hinv.outBound
    wired := by
      rw [hsur.inch, hsur.outch]
      exact hinv.wired }

end

/-! ### What a machine's step keeps of the system -/

/-- The invariant is about the system, whichever machine is in focus. -/
theorem Inv.of_sameSystem {s t : State} (h : Inv s) (hs : SameSystem s t)
    (hnone : t.anyMachine = false → t.mach = Mach.empty 0 0 ∧ t.before = [] ∧ t.after = []) : Inv t where
  noneYet := hnone
  xlenOk := hs.cfg ▸ h.xlenOk
  wiringOk := hs.cfg ▸ h.wiringOk
  machInv k m hk := by
    rw [← hs.cfg, ← hs.chans]
    exact h.machInv k m (hs.machines ▸ hk)
  ownEnds i j mi mj hij hi hj := h.ownEnds i j mi mj hij (hs.machines ▸ hi) (hs.machines ▸ hj)
  chansWired := by
    rw [← hs.cfg, ← hs.chans]
    exact h.chansWired
  chanWords := by
    rw [← hs.cfg, ← hs.chans]
    exact h.chanWords

theorem Inv.of_sameSystem_spawned {s t : State} (h : Inv s) (hs : SameSystem s t) (ha : t.anyMachine = true) : Inv t :=
  h.of_sameSystem hs fun hnone => by cases ha.symm.trans hnone

/-- Each machine after a step stands on the ports that it had before. -/
theorem machineStep_ports {s t : State} (h : machineStep s = .next t) {k : Nat} {m : Mach}
    (hk : t.machines[k]? = some m) : ∃ m0, s.machines[k]? = some m0 ∧ m.inch = m0.inch ∧ m.outch = m0.outch := by
  have hsur := machineStepLeavesTheRestAlone s t h
  rw [machineStep_machines h] at hk
  split at hk
  · rename_i hself
    cases hk
    exact ⟨s.mach, hself ▸ State.machines_self (machineStep_running h).1, hsur.inch, hsur.outch⟩
  · exact ⟨m, hk, rfl, rfl⟩

theorem machineStep_inv {s t : State} (hinv : Inv s) (h : machineStep s = .next t) : Inv t := by
  have hsur := machineStepLeavesTheRestAlone s t h
  have ha := (machineStep_running h).1
  have hmach := hinv.machInv _ _ (State.machines_self ha)
  have hlen := machineStep_chans_length h
  exact {
    noneYet := fun hnone => by cases (hsur.anyMachine.trans ha).symm.trans hnone
    xlenOk := hsur.cfg ▸ hinv.xlenOk
    wiringOk := hsur.cfg ▸ hinv.wiringOk
    machInv := fun k m hk => by
      rw [machineStep_machines h] at hk
      split at hk
      · cases hk
        exact machineStep_machInv hmach h hinv.xlenOk hinv.chanWords
      · rw [hsur.cfg, hlen]
        exact hinv.machInv k m hk
    ownEnds := fun i j mi mj hij hi hj => by
      obtain ⟨ni, hni, hinch, houtch⟩ := machineStep_ports h hi
      obtain ⟨nj, hnj, hinch', houtch'⟩ := machineStep_ports h hj
      rw [hinch, houtch, hinch', houtch']
      exact hinv.ownEnds i j ni nj hij hni hnj
    chansWired := by
      rw [hsur.cfg, hlen]
      exact hinv.chansWired
    chanWords := by
      rw [hsur.cfg]
      exact (machineStep_sound_words hmach h hinv.xlenOk hinv.chanWords).2 }

/-! ### What the host keeps -/

theorem MachInv.mono {cfg : Config} {n n' : Nat} {m : Mach} (h : MachInv cfg n m) (hn : n ≤ n') : MachInv cfg n' m :=
  { h with
    inBound := h.inBound.trans_le hn
    outBound := h.outBound.trans_le hn }

/-- No part of a machine's invariant is about its force-halt flag. -/
theorem MachInv.forceHalt {cfg : Config} {n : Nat} {m : Mach} (h : MachInv cfg n m) : MachInv cfg n m.forceHalt :=
  { h with
    waiting := fun hb => by
      obtain ⟨hrun, hat⟩ := h.waiting hb
      exact ⟨hrun, hat⟩ }

/-- A machine just spawned with an image of words meets the invariant (10_state.md R26). -/
theorem machInv_spawned {cfg : Config} {n inch outch : Nat} {image : List Int} (hx : XLenOk cfg.xlen)
    (hw : image.all (isWord cfg.xlen) = true) (hin : inch < n) (hout : outch < n)
    (hwired : { inch := inch, outch := outch } ∈ cfg.wiring.ports) : MachInv cfg n (Mach.spawned image inch outch) where
  memWf := Memory.wf_ofImage image
  memInExtent a ha := by
    rw [Mach.cell_spawned, List.getElem?_eq_none ha, Option.getD_none]
  memWords a := by
    rw [Mach.cell_spawned]
    cases hv : image[a]? with
    | none => exact hx.1
    | some v => exact List.all_eq_true.1 hw v (List.mem_of_getElem? hv)
  rbWord := hx.1
  outWord h := nomatch h
  causeIff := ⟨fun _ h => (nomatch h), fun _ => rfl⟩
  waiting h := nomatch h
  inBound := hin
  outBound := hout
  wired := hwired

/-- A binding that agrees with the wiring is one of its machines, on ends of its own (log 10). -/
theorem State.bindingAgrees_iff {s : State} {inch outch : Nat} : s.bindingAgrees inch outch = true ↔
    { inch := inch, outch := outch } ∈ s.cfg.wiring.ports ∧
      ∀ (k : Nat) m, s.machines[k]? = some m → m.inch ≠ inch ∧ m.outch ≠ outch := by
  simp only [State.bindingAgrees, Bool.and_eq_true, decide_eq_true_eq, List.all_eq_true]
  refine and_congr_right fun _ => ⟨fun h k m hk => h m (List.mem_of_getElem? hk), fun h m hm => ?_⟩
  obtain ⟨k, hk⟩ := List.mem_iff_getElem?.1 hm
  exact h k m hk

/-- A machine after a host operation was there before, but for its flag, or is the one just spawned. -/
theorem hostStep_machine_cases {op : HostOp} {s t : State} (h : hostStep op s = .next t) {k : Nat} {m : Mach}
    (hk : t.machines[k]? = some m) :
    (∃ m0, s.machines[k]? = some m0 ∧ (m = m0 ∨ m = m0.forceHalt)) ∨
      (k = s.machines.length ∧ ∃ image i o, image.all (isWord s.cfg.xlen) = true ∧
        (i < s.chans.length ∧ o < s.chans.length) ∧ s.bindingAgrees i o = true ∧ m = Mach.spawned image i o) := by
  obtain ⟨-, -, -, hm | ⟨image, i, o, hw, hch, hbind, hm, -⟩ | ⟨j, hm, -⟩⟩ := hostStep_machines h
  · exact .inl ⟨m, hm ▸ hk, .inl rfl⟩
  · rw [hm] at hk
    rcases Nat.lt_or_ge k s.machines.length with hlt | hge
    · rw [List.getElem?_append_left hlt] at hk
      exact .inl ⟨m, hk, .inl rfl⟩
    · rw [List.getElem?_append_right hge, List.getElem?_singleton] at hk
      split at hk
      · rename_i hzero
        cases hk
        exact .inr ⟨by omega, image, i, o, hw, hch, hbind, rfl⟩
      · cases hk
  · rw [hm, List.getElem?_modify, Option.map_eq_map, Option.map_eq_some_iff] at hk
    obtain ⟨m0, h0, rfl⟩ := hk
    refine .inl ⟨m0, h0, ?_⟩
    split
    · exact .inr rfl
    · exact .inl rfl

theorem hostStep_chans_length {op : HostOp} {s t : State} (h : hostStep op s = .next t) :
    s.chans.length ≤ t.chans.length ∧
      (s.chans.length ≤ s.cfg.wiring.ends.length → t.chans.length ≤ s.cfg.wiring.ends.length) := by
  obtain ht | ⟨ht, hlt⟩ | ⟨ch, c, v, -, -, ht⟩ | ⟨ch, c, v, rest, -, -, ht⟩ := hostStep_chans h <;> rw [ht]
  · exact ⟨Nat.le_refl _, id⟩
  · rw [List.length_append]
    exact ⟨Nat.le_add_right _ _, fun _ => hlt⟩
  · rw [List.length_set]
    exact ⟨Nat.le_refl _, id⟩
  · rw [List.length_set]
    exact ⟨Nat.le_refl _, id⟩

theorem hostStep_channelsHoldWords {op : HostOp} {s t : State} (h : hostStep op s = .next t)
    (hw : ChannelsHoldWords s.cfg.xlen s.chans) : ChannelsHoldWords s.cfg.xlen t.chans := by
  obtain ht | ⟨ht, -⟩ | ⟨ch, c, v, hc, hv, ht⟩ | ⟨ch, c, v, rest, hc, hq, ht⟩ := hostStep_chans h <;> rw [ht]
  · exact hw
  · intro ch c hc v hv
    rcases List.mem_append.1 (List.mem_of_getElem? hc) with hmem | hmem
    · obtain ⟨k, hk⟩ := List.mem_iff_getElem?.1 hmem
      exact hw k c hk v hv
    · rw [List.mem_singleton.1 hmem] at hv
      cases hv
  · exact hw.push hc hv
  · exact hw.pop hc hq

/-- A host operation after which there is still no machine leaves the empty place as it is. -/
theorem hostStep_of_noMachine {op : HostOp} {s t : State} (h : hostStep op s = .next t) (ha : t.anyMachine = false) :
    s.anyMachine = false ∧ t.mach = s.mach ∧ t.before = s.before ∧ t.after = s.after := by
  have hs : s.anyMachine = false := by
    cases hs : s.anyMachine with
    | false => rfl
    | true =>
      obtain ⟨-, -, hkeep, -⟩ := hostStep_machines h
      cases ha.symm.trans (hkeep hs).2
  refine ⟨hs, ?_⟩
  cases op with
  | spawn image i o =>
    simp only [hostStep, hostSpawn] at h
    split at h
    · split at h
      · split at h
        · cases h
          simp at ha
        · cases h
      · cases h
    · cases h
  | forceHalt k =>
    rw [hostStep, hostForceHalt, State.machines_eq_nil hs] at h
    cases h
  | _ =>
    -- the other operations change at most the channels and the replies
    simp only [hostStep, hostCreateChannel, hostPush, hostPop, hostTryPop, hostWait, hostLastOutput, hostDump] at h
    repeat' split at h
    all_goals cases h
    all_goals exact ⟨rfl, rfl, rfl⟩

theorem hostStep_inv {op : HostOp} {s t : State} (hinv : Inv s) (h : hostStep op s = .next t) : Inv t := by
  obtain ⟨hcfg, -⟩ := hostStep_machines h
  obtain ⟨hmono, hbound⟩ := hostStep_chans_length h
  exact {
    noneYet := fun hnone => by
      obtain ⟨hs, hm, hb, ha⟩ := hostStep_of_noMachine h hnone
      rw [hm, hb, ha]
      exact hinv.noneYet hs
    xlenOk := hcfg ▸ hinv.xlenOk
    wiringOk := hcfg ▸ hinv.wiringOk
    machInv := fun k m hk => by
      rw [hcfg]
      obtain ⟨m0, h0, rfl | rfl⟩ | ⟨-, image, i, o, hw, hch, hbind, rfl⟩ := hostStep_machine_cases h hk
      · exact (hinv.machInv k m h0).mono hmono
      · exact ((hinv.machInv k m0 h0).mono hmono).forceHalt
      · exact (machInv_spawned hinv.xlenOk hw hch.1 hch.2 (State.bindingAgrees_iff.1 hbind).1).mono hmono
    ownEnds := by
      have old : ∀ {k : Nat} {m m0 : Mach}, s.machines[k]? = some m0 → m = m0 ∨ m = m0.forceHalt →
          s.machines[k]? = some m0 ∧ m.inch = m0.inch ∧ m.outch = m0.outch := by
        rintro k m m0 h0 (rfl | rfl)
        · exact ⟨h0, rfl, rfl⟩
        · exact ⟨h0, rfl, rfl⟩
      intro i j mi mj hij hi hj
      obtain ⟨ni, hi, hmi⟩ | ⟨hilast, image, a, b, -, -, hbind, rfl⟩ :=
          hostStep_machine_cases h hi
      · obtain ⟨hi, hin, hout⟩ := old hi hmi
        obtain ⟨nj, hj, hmj⟩ | ⟨-, image, a, b, -, -, hbind, rfl⟩ := hostStep_machine_cases h hj
        · obtain ⟨hj, hin', hout'⟩ := old hj hmj
          rw [hin, hout, hin', hout']
          exact hinv.ownEnds i j ni nj hij hi hj
        · rw [hin, hout]
          exact (State.bindingAgrees_iff.1 hbind).2 i ni hi
      · obtain ⟨nj, hj, hmj⟩ | ⟨hjlast, -⟩ := hostStep_machine_cases h hj
        · obtain ⟨hj, hin, hout⟩ := old hj hmj
          obtain ⟨hne, hne'⟩ := (State.bindingAgrees_iff.1 hbind).2 j nj hj
          rw [hin, hout]
          exact ⟨hne.symm, hne'.symm⟩
        · exact absurd (hilast.trans hjlast.symm) hij
    chansWired := by
      rw [hcfg]
      exact hbound hinv.chansWired
    chanWords := by
      rw [hcfg]
      exact hostStep_channelsHoldWords h hinv.chanWords }

/-! ### The steps of the system -/

theorem eventStep_inv {e : Event} {s t : State} (hinv : Inv s) (h : eventStep e s = .next t) : Inv t := by
  cases e with
  | run k =>
    obtain ⟨f, -, -, hsame, hstep⟩ := eventStep_run_cases h
    exact machineStep_inv (hinv.of_sameSystem_spawned hsame (machineStep_running hstep).1) hstep
  | host op => exact hostStep_inv hinv h

/-- The invariant does not look at the events to come. -/
theorem Inv.withSchedule {s : State} (h : Inv s) (l : List Event) : Inv (s.withSchedule l) := { h with }

/-- Before the first spawn, and so where a step leaves no machine, no turn passes: the step is the event's. -/
theorem step_of_noMachine {s t : State} (h : step s = .next t) (ha : t.anyMachine = false) :
    ∃ e, eventStep e (s.withSchedule s.schedule.tail) = .next t := by
  cases hsch : s.schedule with
  | cons e rest =>
    rw [step_of_schedule_cons hsch] at h
    exact ⟨e, h⟩
  | nil =>
    exfalso
    cases hturn : s.turn with
    | none =>
      rw [step_of_turn_eq_none hsch hturn] at h
      have hany := (machineStepLeavesTheRestAlone s t h).anyMachine.trans (machineStep_running h).1
      cases ha.symm.trans hany
    | some k =>
      obtain ⟨j, -, hlen, -⟩ := step_turn_cases hsch h
      have hk := State.lt_of_machineEnabled (State.enabled_of_turn hturn)
      rw [State.machines_eq_nil ha] at hlen
      simp [← hlen] at hk

/-- Settles O57: the invariant is about the system, so it is enough that the events keep it. -/
theorem stepKeepsTheInvariant : Obligations.StepKeepsTheInvariant := by
  intro s t hinv h
  have htail := hinv.withSchedule s.schedule.tail
  cases ha : t.anyMachine with
  | false =>
    obtain ⟨e, he⟩ := step_of_noMachine h ha
    exact eventStep_inv htail he
  | true =>
    obtain ⟨e, u, -, he, hsame⟩ := step_next_cases h
    exact (eventStep_inv htail he).of_sameSystem_spawned hsame ha

/-! ### Reset -/

/-- The invariant holds when nothing exists yet (70_reset_and_hazards.md R130). -/
theorem inv_boot {cfg : Config} (hx : XLenOk cfg.xlen) (hw : wiringOk cfg.wiring = true) : Inv (State.boot cfg) where
  noneYet _ := ⟨rfl, rfl, rfl⟩
  xlenOk := hx
  wiringOk := hw
  machInv _ _ hk := nomatch hk
  ownEnds _ _ _ _ _ hi := nomatch hi
  chansWired := Nat.zero_le _
  chanWords _ _ hc := nomatch hc

/-- From nothing, two channels and a spawn of the empty image make the reset state (70_reset_and_hazards.md R126). -/
theorem runEvents_boot_reset :
    runEvents [.host .createChannel, .host .createChannel, .host (.spawn [] 0 1)] (State.boot Config.ofSpec) =
      .next { State.reset with replies := [.channel 0, .channel 1, .handle 0] } := rfl

/-- Settles O1: each field is the one that `State.reset` is written with, and the three operations make it. -/
theorem resetStateAsSpecified : Obligations.ResetStateAsSpecified := by
  refine ⟨rfl, rfl, fun _ => rfl, rfl, rfl, rfl, rfl, rfl, rfl, rfl, rfl, ?_, rfl, rfl, runEvents_boot_reset⟩
  decide

theorem runEvents_inv {events : List Event} {s t : State} (hinv : Inv s) (h : runEvents events s = .next t) :
    Inv t := by
  induction events generalizing s with
  | nil =>
    cases h
    exact hinv
  | cons e es ih =>
    obtain ⟨u, he, hu⟩ := runEvents_cons_cases h
    exact ih (eventStep_inv hinv he) hu

/-- Settles O2: reset is reached from a system that holds nothing, but for the replies, which the invariant does not
look at. -/
theorem resetMeetsTheInvariant : Obligations.ResetMeetsTheInvariant := by
  refine ⟨?_, fun cfg => inv_boot⟩
  have hboot : Inv (State.boot Config.ofSpec) := inv_boot ⟨by decide, by decide⟩ (by decide)
  exact { runEvents_inv hboot runEvents_boot_reset with }

end Sys2Proof.Machine
end
